-- ==== Sys2Proof/Word.lean ====
section
/-!
DEFINITION. The word type of the block and the narrower fields beside it (spec/00_scope.md R7, R9).
Bit 0 is the least significant bit; every value is unsigned.
-/

namespace Sys2Proof

/-- A word: an unsigned integer below 2^32 (R7). -/
abbrev Word := BitVec 32

/-- One byte: the OPC field, the IDX field, or a byte of a host's message. -/
abbrev Byte := BitVec 8

/-- The IDX field of a command word: index, shift amount, or zero (R75). -/
abbrev Idx := BitVec 8

/-- A 4-bit error or response code (R28, R86). -/
abbrev Code := BitVec 4

end Sys2Proof
end

