-- ==== Sys2Proof/Config.lean ====
section
/-!
DEFINITION. The configuration of one block: the parameters of spec/00_scope.md R6.
The two tables and the trace switch are carried as data, so that a claim can hold for every
configuration; `Config.std` is the one "this hardware takes" (the premise `cfg_std` of R271; log entry
5).
The parameters that no command reads are arguments too: the latencies `LAT_*` and `HOST_BINDING`
stand here, and `Params` (Machine/Boot.lean) takes every parameter of R6 by name.
-/

namespace Sys2Proof

/-- `WIDTH`: fixed at 32 (R6). -/
abbrev Config.width : Nat := 32

/-- `N_ROUNDS`: 64 rounds per block (R6). -/
abbrev Config.nRounds : Nat := 64

/-- `N_SCHED`: 64 schedule words (R6). -/
abbrev Config.nSched : Nat := 64

/-- `N_BLOCKWORDS`: 16 words per block (R6). -/
abbrev Config.nBlockWords : Nat := 16

/-- `N_HASH`: 8 words of running hash (R6). -/
abbrev Config.nHash : Nat := 8

/-- `SHAMT_BITS`: the width of the shift amount field (R6, R75). -/
abbrev Config.shamtBits : Nat := 8

/-- The build-time configuration of one block (R6): the round constants (R26), the initial hash
value (R24) and whether the optional trace port is present (R251). -/
structure Config where
  kTable  : Vector Word Config.nRounds
  ivTable : Vector Word Config.nHash
  trace   : Bool
  deriving DecidableEq, Repr

/-- The default `IV_TABLE` (R24). -/
def Config.stdIV : Vector Word Config.nHash := #v[
  0x6a09e667, 0xbb67ae85, 0x3c6ef372, 0xa54ff53a, 0x510e527f, 0x9b05688c, 0x1f83d9ab, 0x5be0cd19]

/-- The default `K_TABLE` as the spec tabulates it: row r, column c (R27). -/
def Config.stdKRows : Vector (Vector Word 8) 8 := #v[
  -- r = 0
  #v[0x428a2f98, 0x71374491, 0xb5c0fbcf, 0xe9b5dba5,
     0x3956c25b, 0x59f111f1, 0x923f82a4, 0xab1c5ed5],
  -- r = 1
  #v[0xd807aa98, 0x12835b01, 0x243185be, 0x550c7dc3,
     0x72be5d74, 0x80deb1fe, 0x9bdc06a7, 0xc19bf174],
  -- r = 2
  #v[0xe49b69c1, 0xefbe4786, 0x0fc19dc6, 0x240ca1cc,
     0x2de92c6f, 0x4a7484aa, 0x5cb0a9dc, 0x76f988da],
  -- r = 3
  #v[0x983e5152, 0xa831c66d, 0xb00327c8, 0xbf597fc7,
     0xc6e00bf3, 0xd5a79147, 0x06ca6351, 0x14292967],
  -- r = 4
  #v[0x27b70a85, 0x2e1b2138, 0x4d2c6dfc, 0x53380d13,
     0x650a7354, 0x766a0abb, 0x81c2c92e, 0x92722c85],
  -- r = 5
  #v[0xa2bfe8a1, 0xa81a664b, 0xc24b8b70, 0xc76c51a3,
     0xd192e819, 0xd6990624, 0xf40e3585, 0x106aa070],
  -- r = 6
  #v[0x19a4c116, 0x1e376c08, 0x2748774c, 0x34b0bcb5,
     0x391c0cb3, 0x4ed8aa4a, 0x5b9cca4f, 0x682e6ff3],
  -- r = 7
  #v[0x748f82ee, 0x78a5636f, 0x84c87814, 0x8cc70208,
     0x90befffa, 0xa4506ceb, 0xbef9a3f7, 0xc67178f2]]

/-- The default `K_TABLE`: `K[8r+c]` is row r, column c of the spec's table (R27). -/
def Config.stdK : Vector Word Config.nRounds :=
  Vector.ofFn fun t : Fin 64 =>
    have row : t.val / 8 < 8 := by omega
    Config.stdKRows[t.val / 8][t.val % 8]'(by omega)

/-- `LAT_<mnemonic>`: the latency of each command in cycles, read by no rule (R6, R72, R269). -/
structure Latencies where
  nop : Nat
  init : Nat
  loadw : Nat
  expand : Nat
  compress : Nat
  seth : Nat
  readh : Nat
  readw : Nat
  readv : Nat
  readk : Nat
  rdstat : Nat
  clrerr : Nat
  and : Nat
  or : Nat
  xor : Nat
  not : Nat
  add : Nat
  shl : Nat
  shr : Nat
  rotl : Nat
  rotr : Nat
  ch : Nat
  maj : Nat
  bsig0 : Nat
  bsig1 : Nat
  ssig0 : Nat
  ssig1 : Nat
  deriving DecidableEq, Repr

/-- The latencies in the order of the opcode map (R78). -/
def Latencies.toList (l : Latencies) : List Nat :=
  [l.nop, l.init, l.loadw, l.expand, l.compress, l.seth, l.readh, l.readw, l.readv, l.readk,
   l.rdstat, l.clrerr, l.and, l.or, l.xor, l.not, l.add, l.shl, l.shr, l.rotl, l.rotr,
   l.ch, l.maj, l.bsig0, l.bsig1, l.ssig0, l.ssig1]

/-- Every latency is at least 1; there is no upper bound (R6, R72). -/
def Latencies.legal (l : Latencies) : Bool := l.toList.all fun n => 1 ≤ n

/-- `HOST_BINDING`: how a host reaches the command channel, the platform's and read by no rule
(R58). The first three are the spec's examples; the list is open. -/
inductive HostBinding where
  | memoryMappedWrapper
  | coprocessorPort
  | busBridge
  | other (name : String)
  deriving DecidableEq, Repr

/-- The configuration this hardware takes: the default tables, trace absent (R6, R24, R27). -/
def Config.std : Config := ⟨Config.stdK, Config.stdIV, false⟩

end Sys2Proof
end

