-- ==== Sys2Proof/Syntax.lean ====
section
/-!
DEFINITION. The syntax of the block: a command as the channel carries it (spec/30_encoding.md R70),
the error codes (spec/60_exceptions.md R230) and the 27 commands, one constructor for each row of
spec/opcode_table.json. A constructor holds the operand words of the ports its command reads
(R77) and, where its command uses IDX, the whole 8-bit field (R75).
-/

namespace Sys2Proof

/-- A command as the channel carries it: the command word and three operand words (R70). -/
structure Command where
  cmd : Word
  da  : Word
  db  : Word
  dc  : Word
  deriving DecidableEq, Repr

/-- A response: RESULT and RCODE (R70, R85). -/
structure Response where
  result : Word
  code   : Code
  deriving DecidableEq, Repr

/-- The named error codes (R230). Codes 1, 2 and 4 are the host's or the configuration's and are
never raised by a command; codes 7 to 15 are reserved and have no name here. -/
inductive ErrorCode where
  | none | invalidWidth | widthMismatch | invalidShiftAmount
  | messageTooLong | illegalCommand | indexOutOfRange
  deriving DecidableEq, Repr

/-- The 27 commands (R78). -/
inductive Instr where
  -- engine control and data movement (spec/44_control.md)
  | nop
  | init
  | loadw (i : Idx) (v : Word)
  -- schedule and compression (spec/42_schedule.md, spec/43_compress.md)
  | expand
  | compress
  | seth (i : Idx) (v : Word)
  | readh (i : Idx)
  | readw (i : Idx)
  | readv (i : Idx)
  | readk (i : Idx)
  | rdstat
  | clrerr
  -- ALU (spec/40_alu.md)
  | and (a b : Word)
  | or (a b : Word)
  | xor (a b : Word)
  | not (a : Word)
  | add (a b : Word)
  | shl (a : Word) (n : Idx)
  | shr (a : Word) (n : Idx)
  | rotl (a : Word) (n : Idx)
  | rotr (a : Word) (n : Idx)
  -- logical functions (spec/41_functions.md)
  | ch (x y z : Word)
  | maj (x y z : Word)
  | bsig0 (x : Word)
  | bsig1 (x : Word)
  | ssig0 (x : Word)
  | ssig1 (x : Word)
  deriving DecidableEq, Repr

/-- The three ways a command uses its IDX field (R75, R79); an index carries its `BOUND` (R83). -/
inductive IdxUse where
  | unused
  | index (bound : Nat)
  | shift
  deriving DecidableEq, Repr

end Sys2Proof
end

