-- ==== Sys2Proof/WellFormed.lean ====
section
/-!
DEFINITION. Which commands have a legal IDX (spec/30_encoding.md R75, R79, R83): a command is
well formed when its index is below its array's bound, or its shift amount below 32. An ill-formed
command is still a command: it decodes, and its meaning raises the error the spec names (R80).
-/

namespace Sys2Proof

/-- `IDXUSE(op)` and `BOUND(op)` of R79, with the IDX value the command carries. -/
def Instr.idxUse : Instr → IdxUse × Idx
  | .loadw i _ => (.index 16, i)
  | .seth i _ => (.index 8, i)
  | .readh i => (.index 8, i)
  | .readw i => (.index 64, i)
  | .readv i => (.index 8, i)
  | .readk i => (.index 64, i)
  | .shl _ n | .shr _ n | .rotl _ n | .rotr _ n => (.shift, n)
  | .nop | .init | .expand | .compress | .rdstat | .clrerr => (.unused, 0)
  | .and _ _ | .or _ _ | .xor _ _ | .not _ | .add _ _ => (.unused, 0)
  | .ch _ _ _ | .maj _ _ _ | .bsig0 _ | .bsig1 _ | .ssig0 _ | .ssig1 _ => (.unused, 0)

/-- The error an index or shift check of R79 raises for this command, if any. -/
def Instr.operandError (i : Instr) : Option ErrorCode :=
  match i.idxUse with
  | (.unused, _) => none
  | (.index bound, n) => if n.toNat < bound then none else some .indexOutOfRange
  | (.shift, n) => if n.toNat < 32 then none else some .invalidShiftAmount

/-- A command whose IDX is legal (R80). -/
def Instr.wellFormed (i : Instr) : Bool := i.operandError.isNone

end Sys2Proof
end

