-- ==== Sys2Proof/Decode.lean ====
section
/-!
DEFINITION. The decoder and the encoder of the command word (spec/30_encoding.md R73 to R84).
`decode` makes the first three checks of R79, which need only the command word and its fields;
the index and shift checks come next and belong to the commands' own rules
(`Instr.operandError`, and the meanings). `classify` is the whole of R79.
-/

namespace Sys2Proof

/-- `OPC = CMD[7:0]` (R74). -/
def Command.opc (c : Command) : Byte := c.cmd.extractLsb' 0 8

/-- `IDX = CMD[15:8]` (R75). -/
def Command.idx (c : Command) : Idx := c.cmd.extractLsb' 8 8

/-- `RSV = CMD[31:16]` (R76). -/
def Command.rsv (c : Command) : BitVec 16 := c.cmd.extractLsb' 16 16

/-- Why a command word is illegal: the three IllegalCommand checks of R79, in their order. -/
inductive DecodeError where
  /-- `RSV ≠ 0` (R76). -/
  | reservedBits
  /-- OPC is not in the map of R78 (R81). -/
  | unassignedOpcode
  /-- `IDX ≠ 0` on a command that does not use IDX (R75). -/
  | unusedIndex
  deriving DecidableEq, Repr

/-- A command that does not use IDX: IDX must be 0 (R75, R79). -/
def plainCommand (c : Command) (i : Instr) : Except DecodeError Instr :=
  if c.idx = 0 then .ok i else .error .unusedIndex

/-- The opcode map (R78), with the operand ports of R77. -/
def decodeOpcode (c : Command) : Except DecodeError Instr :=
  match c.opc with
  | 0x00#8 => plainCommand c .nop
  | 0x01#8 => plainCommand c .init
  | 0x02#8 => .ok (.loadw c.idx c.da)
  | 0x03#8 => plainCommand c .expand
  | 0x04#8 => plainCommand c .compress
  | 0x05#8 => .ok (.seth c.idx c.da)
  | 0x06#8 => .ok (.readh c.idx)
  | 0x07#8 => .ok (.readw c.idx)
  | 0x08#8 => .ok (.readv c.idx)
  | 0x09#8 => .ok (.readk c.idx)
  | 0x0A#8 => plainCommand c .rdstat
  | 0x0B#8 => plainCommand c .clrerr
  | 0x10#8 => plainCommand c (.and c.da c.db)
  | 0x11#8 => plainCommand c (.or c.da c.db)
  | 0x12#8 => plainCommand c (.xor c.da c.db)
  | 0x13#8 => plainCommand c (.not c.da)
  | 0x14#8 => plainCommand c (.add c.da c.db)
  | 0x15#8 => .ok (.shl c.da c.idx)
  | 0x16#8 => .ok (.shr c.da c.idx)
  | 0x17#8 => .ok (.rotl c.da c.idx)
  | 0x18#8 => .ok (.rotr c.da c.idx)
  | 0x20#8 => plainCommand c (.ch c.da c.db c.dc)
  | 0x21#8 => plainCommand c (.maj c.da c.db c.dc)
  | 0x22#8 => plainCommand c (.bsig0 c.da)
  | 0x23#8 => plainCommand c (.bsig1 c.da)
  | 0x24#8 => plainCommand c (.ssig0 c.da)
  | 0x25#8 => plainCommand c (.ssig1 c.da)
  | _ => .error .unassignedOpcode

/-- The decoder: total on every command, rejecting by name (R79, R80). -/
def decode (c : Command) : Except DecodeError Instr :=
  if c.rsv = 0 then decodeOpcode c else .error .reservedBits

/-- Every decode error is IllegalCommand (R79, R235). -/
def DecodeError.code : DecodeError → ErrorCode
  | .reservedBits | .unassignedOpcode | .unusedIndex => .illegalCommand

/-- All five checks of R79, in its order: the command with a legal IDX that a command word
selects, or the one error it raises (R80). -/
def classify (c : Command) : Except ErrorCode Instr :=
  match decode c with
  | .error e => .error e.code
  | .ok i =>
    match i.operandError with
    | some e => .error e
    | none => .ok i

/-- The opcode of a command (R78). -/
def Instr.opcode : Instr → Byte
  | .nop => 0x00
  | .init => 0x01
  | .loadw _ _ => 0x02
  | .expand => 0x03
  | .compress => 0x04
  | .seth _ _ => 0x05
  | .readh _ => 0x06
  | .readw _ => 0x07
  | .readv _ => 0x08
  | .readk _ => 0x09
  | .rdstat => 0x0A
  | .clrerr => 0x0B
  | .and _ _ => 0x10
  | .or _ _ => 0x11
  | .xor _ _ => 0x12
  | .not _ => 0x13
  | .add _ _ => 0x14
  | .shl _ _ => 0x15
  | .shr _ _ => 0x16
  | .rotl _ _ => 0x17
  | .rotr _ _ => 0x18
  | .ch _ _ _ => 0x20
  | .maj _ _ _ => 0x21
  | .bsig0 _ => 0x22
  | .bsig1 _ => 0x23
  | .ssig0 _ => 0x24
  | .ssig1 _ => 0x25

/-- The operand words a command puts on DA, DB and DC; ports it does not name are 0 (R77, R87). -/
def Instr.operands : Instr → Word × Word × Word
  | .loadw _ v | .seth _ v => (v, 0, 0)
  | .and a b | .or a b | .xor a b | .add a b => (a, b, 0)
  | .not a => (a, 0, 0)
  | .shl a _ | .shr a _ | .rotl a _ | .rotr a _ => (a, 0, 0)
  | .ch x y z | .maj x y z => (x, y, z)
  | .bsig0 x | .bsig1 x | .ssig0 x | .ssig1 x => (x, 0, 0)
  | .nop | .init | .expand | .compress | .rdstat | .clrerr => (0, 0, 0)
  | .readh _ | .readw _ | .readv _ | .readk _ => (0, 0, 0)

/-- The command word of an opcode and an IDX, with RSV = 0 (R73, R87). -/
def commandWord (opc : Byte) (idx : Idx) : Word := (0#16 ++ idx ++ opc)

/-- The encoder (R73, R78, R87). -/
def encode (i : Instr) : Command :=
  ⟨commandWord i.opcode i.idxUse.2, i.operands.1, i.operands.2.1, i.operands.2.2⟩

/-- The command whose bits are `w`, numbered as spec/opcode_table.json numbers them: CMD is bits
31..0, and DA, DB and DC count on from it; every bit from `nbits` up is 0. -/
def tableCommand (nbits w : Nat) : Command :=
  ⟨BitVec.ofNat 32 (w % 2 ^ nbits), BitVec.ofNat 32 (w % 2 ^ nbits / 2 ^ 32),
    BitVec.ofNat 32 (w % 2 ^ nbits / 2 ^ 64), BitVec.ofNat 32 (w % 2 ^ nbits / 2 ^ 96)⟩

/-- The instruction the decoder reads from a row's word. -/
def decodeTableWord (nbits w : Nat) : Option Instr :=
  match decode (tableCommand nbits w) with
  | .ok i => some i
  | .error _ => none

end Sys2Proof
end

