-- ==== Sys2Proof/Machine/State.lean ====
section
/-!
DEFINITION. The state of one block as plain data (spec/10_state.md R20), its faults and refusals,
and the state after reset (R37). No field has a function type.
`h`, `v`, `w` with their written flags, `errcode` and `fsm` are the spec's state; `cfg` carries the
read-only configuration (R6); `input`, `responses` and `trace` are the command channel, the
response channel (R70) and the optional trace port (R251, R252).
-/

namespace Sys2Proof.Machine

open Sys2Proof

/-- A bank of `n` words, each with the model's written flag `wr` (R35). -/
structure Bank (n : Nat) where
  word : Vector Word n
  wr   : Vector Bool n
  deriving DecidableEq, Repr

/-- An element of H, V or W, as a fault names it (R35). -/
inductive Elem where
  | h (i : Fin 8)
  | v (i : Fin 8)
  | w (i : Fin 64)
  deriving DecidableEq, Repr

/-- The sequencing state `fsm` (R32). `exp t` is legal for 16 ≤ t ≤ 63 (log entry 17). -/
inductive Fsm where
  | idle
  | exp (t : Fin 64)
  | rnd (t : Fin 64)
  | ff
  deriving DecidableEq, Repr

/-- The eight working values a..h of a compression (R11, R160). -/
structure Work where
  a : Word
  b : Word
  c : Word
  d : Word
  e : Word
  f : Word
  g : Word
  h : Word
  deriving DecidableEq, Repr

/-- A trace record: the round number and the working values after that round (R252). -/
structure TraceRecord where
  round : Fin 64
  work  : Work
  deriving DecidableEq, Repr

/-- What the host does to the block, one event a step: it offers a command (R70), or it applies
reset (R260). -/
inductive HostInput where
  | command (c : Command)
  | reset
  deriving DecidableEq, Repr

/-- The model's faults (R12, R250). A fault ends the run: the outcome is its record, and no step
clears it (log entry 6). -/
inductive Fault where
  /-- A command read an element that no command has written since reset: READH, READV, READW,
  EXPAND and COMPRESS raise it (R35). SAFE: the spec's own rule for a model; the chip would go on
  with an unspecified value, so the model proves less, never more (log entry 1). -/
  | unwritten (x : Elem)
  deriving DecidableEq, Repr

/-- The model's refusals. No command is refused (R12, R80); all but the first are raised when a
block is built, before any step (`Params.build`). -/
inductive Refusal where
  /-- An instruction that has no meaning yet, raised by exec's arm. SAFE. No arm raises it now. -/
  | notModelled (mnemonic : String)
  /-- `WIDTH` is not positive or not divisible by 4 (R6, R231). SAFE: no block is built. -/
  | invalidWidth
  /-- `WIDTH` passes the check but is not 32: outside the spec (R231). SAFE: no block is built. -/
  | widthOutsideSpec
  /-- A parameter that R6 fixes (`N_ROUNDS`, `N_SCHED`, `N_BLOCKWORDS`, `N_HASH`, `SHAMT_BITS`) has
  another value (log entry 14). SAFE: no block is built. -/
  | parameterOutsideSpec
  /-- A latency is 0, where R6 asks for at least 1 (log entry 14). SAFE: no block is built. -/
  | latencyBelowOne
  /-- `N_ENGINES` is 0, where R6 asks for at least 1 (log entry 14). SAFE: no block is built. -/
  | noEngines
  deriving DecidableEq, Repr

/-- The state of one block. -/
structure State where
  /-- The running hash `H[0..7]` (R21). -/
  h : Bank 8
  /-- The working registers `V[0..7]` (R22). -/
  v : Bank 8
  /-- The schedule memory `W[0..63]` (R23). -/
  w : Bank 64
  /-- The sticky error code `ERRCODE` (R28). -/
  errcode : Code
  /-- The sequencing state (R32). -/
  fsm : Fsm
  /-- The build-time configuration: `K_TABLE`, `IV_TABLE`, `TRACE` (R6); no step writes it. -/
  cfg : Config
  /-- What the host has yet to do, first event first (the model's own field, log entry 3). -/
  input : List HostInput
  /-- The responses since reset, oldest first (R61, R86, R270). -/
  responses : List Response
  /-- The trace records since reset, oldest first (R252; kept whole, log entry 13). -/
  trace : List TraceRecord
  deriving DecidableEq, Repr

/-- A bank no element of which is written; the words under the flags are 0 and no command can
read them (R35, R37; DESIGN CHOICE, log entry 2). -/
def Bank.blank (n : Nat) : Bank n := ⟨Vector.replicate n 0, Vector.replicate n false⟩

/-- The state after reset under a configuration (R37, R260). -/
def State.resetWith (cfg : Config) : State where
  h := Bank.blank 8
  v := Bank.blank 8
  w := Bank.blank 64
  errcode := 0
  fsm := .idle
  cfg := cfg
  input := []
  responses := []
  trace := []

/-- The state after reset under the configuration this hardware takes: `fresh` under `cfg_std`
(R271). -/
def State.reset : State := State.resetWith Config.std

end Sys2Proof.Machine
end

