-- ==== Sys2Proof/Machine/Ops.lean ====
section
/-!
DEFINITION. The named operations over the state: reading and writing the banks with their written
flags (spec/10_state.md R35), responding (spec/30_encoding.md R86), raising an error (the block's
one kind of exception, spec/60_exceptions.md R237), clearing it (R242), and reset (R260).
-/

namespace Sys2Proof.Machine

open Sys2Proof

/-- The numeric code of an error (R230). -/
def errorNumber : ErrorCode → Code
  | .none => 0
  | .invalidWidth => 1
  | .widthMismatch => 2
  | .invalidShiftAmount => 3
  | .messageTooLong => 4
  | .illegalCommand => 5
  | .indexOutOfRange => 6

/-- Write one element and set its written flag (R35). -/
def Bank.write {n : Nat} (b : Bank n) (i : Fin n) (x : Word) : Bank n :=
  ⟨b.word.set i.val x i.isLt, b.wr.set i.val true i.isLt⟩

/-- Write every element of an eight-word bank. -/
def writeAll (x : Vector Word 8) : Bank 8 := ⟨x, Vector.replicate 8 true⟩

/-- The written flag of an element (R35). -/
def State.isWritten (s : State) : Elem → Bool
  | .h i => s.h.wr[i.val]
  | .v i => s.v.wr[i.val]
  | .w i => s.w.wr[i.val]

/-- The word an element holds, whether or not it was written. -/
def State.wordAt (s : State) : Elem → Word
  | .h i => s.h.word[i.val]
  | .v i => s.v.word[i.val]
  | .w i => s.w.word[i.val]

/-- Read an element: `Unwritten(x)` when its flag is false (R35, R250). -/
def State.read (s : State) (x : Elem) : Except Fault Word :=
  if s.isWritten x then .ok (s.wordAt x) else .error (.unwritten x)

/-- The first unwritten element of a list, in its order: the checks EXPAND and COMPRESS make
before any write (R151, R163). -/
def State.firstUnwritten (s : State) : List Elem → Option Elem
  | [] => none
  | x :: xs => if s.isWritten x then s.firstUnwritten xs else some x

/-- W[0..15], in order (R151). -/
def blockElems : List Elem := ((List.finRange 64).take 16).map Elem.w

/-- H[0..7], in order (R163). -/
def hashElems : List Elem := (List.finRange 8).map Elem.h

/-- ERRCODE keeps the first error since reset or CLRERR (R237 item 3). -/
def State.recordError (s : State) (code : Code) : State :=
  if code ≠ 0 ∧ s.errcode = 0 then { s with errcode := code } else s

/-- `respond(result, code)`: the response of the current command; a nonzero code also applies R237
to ERRCODE (R86). -/
def State.respond (s : State) (result : Word) (code : Code) : State :=
  { s.recordError code with responses := s.responses ++ [⟨result, code⟩] }

/-- `raise E`: the command ends with RESULT 0 and E's code, and nothing but ERRCODE is written.
The block saves nothing else and goes on with the next command (R237, R241). -/
def State.raise (s : State) (e : ErrorCode) : State := s.respond 0 (errorNumber e)

/-- What stands in for a return from an error: ERRCODE becomes 0 (R190, R242). -/
def State.clearError (s : State) : State := { s with errcode := 0 }

/-- Reset: every piece of state takes its reset value, no response and no trace record is
pending, the configuration stays (R260). What the host does after the reset is still to come. -/
def State.applyReset (s : State) : State := { State.resetWith s.cfg with input := s.input }

end Sys2Proof.Machine
end

