-- ==== Sys2Proof/Machine/Operands.lean ====
section
/-!
DEFINITION. The operand forms (spec/30_encoding.md R75, R79, R83): an index checked against its
array's bound, a shift amount checked against 32, and an element read with its written flag.
Operand words arrive whole on DA, DB and DC and need no operation (R82).
-/

namespace Sys2Proof.Machine

open Sys2Proof

/-- An index operand: IndexOutOfRange at or past the bound, with no wrap (R83, R236). -/
def withIndex (bound : Nat) (i : Idx) (s : State)
    (k : Fin bound → Host.Outcome State Fault Refusal) : Host.Outcome State Fault Refusal :=
  if h : i.toNat < bound then k ⟨i.toNat, h⟩ else .next (s.raise .indexOutOfRange)

/-- A shift amount: InvalidShiftAmount from 32 up (R113, R233). -/
def withShift (n : Idx) (s : State)
    (k : Nat → Host.Outcome State Fault Refusal) : Host.Outcome State Fault Refusal :=
  if n.toNat < 32 then k n.toNat else .next (s.raise .invalidShiftAmount)

/-- Respond with the word an element holds; an unwritten element faults (R35, R180). -/
def answerElem (x : Elem) (s : State) : Host.Outcome State Fault Refusal :=
  match s.read x with
  | .ok v => .next (s.respond v 0)
  | .error f => .fault f

/-- Go on only when every element of a list is written; else fault on the first (R151, R163). -/
def withWritten (xs : List Elem) (s : State)
    (k : Host.Outcome State Fault Refusal) : Host.Outcome State Fault Refusal :=
  match s.firstUnwritten xs with
  | some x => .fault (.unwritten x)
  | none => k

end Sys2Proof.Machine
end

