-- ==== Sys2Proof/Machine/Alu.lean ====
section
/-!
DEFINITION. The nine ALU commands (spec/40_alu.md R100 to R109). Each computes a word from its
operands alone, responds with it, and touches no other state (R115).
-/

namespace Sys2Proof.Machine

open Sys2Proof

/-- `a << n` for n below 32: zeros fill from bit 0 (R106). -/
def shl (a : Word) (n : Nat) : Word := a <<< n

/-- `a >> n` for n below 32: zeros fill from bit 31 (R107). -/
def shr (a : Word) (n : Nat) : Word := a >>> n

/-- `rotl(a, n)` for n below 32, n = 0 being its own case (R108). -/
def rotl (a : Word) (n : Nat) : Word := if n = 0 then a else shl a n ||| shr a (32 - n)

/-- `rotr(a, n)` for n below 32, n = 0 being its own case (R109). -/
def rotr (a : Word) (n : Nat) : Word := if n = 0 then a else shr a n ||| shl a (32 - n)

/-- AND (R101). -/
def execAnd (a b : Word) (s : State) : Host.Outcome State Fault Refusal :=
  .next (s.respond (a &&& b) 0)

/-- OR (R102). -/
def execOr (a b : Word) (s : State) : Host.Outcome State Fault Refusal :=
  .next (s.respond (a ||| b) 0)

/-- XOR (R103). -/
def execXor (a b : Word) (s : State) : Host.Outcome State Fault Refusal :=
  .next (s.respond (a ^^^ b) 0)

/-- NOT (R104). -/
def execNot (a : Word) (s : State) : Host.Outcome State Fault Refusal :=
  .next (s.respond (~~~a) 0)

/-- ADD, modulo 2^32, with no flag and no error on wrap (R105). -/
def execAdd (a b : Word) (s : State) : Host.Outcome State Fault Refusal :=
  .next (s.respond (a + b) 0)

/-- SHL (R106). -/
def execShl (a : Word) (n : Idx) (s : State) : Host.Outcome State Fault Refusal :=
  withShift n s fun n => .next (s.respond (shl a n) 0)

/-- SHR (R107). -/
def execShr (a : Word) (n : Idx) (s : State) : Host.Outcome State Fault Refusal :=
  withShift n s fun n => .next (s.respond (shr a n) 0)

/-- ROTL (R108). -/
def execRotl (a : Word) (n : Idx) (s : State) : Host.Outcome State Fault Refusal :=
  withShift n s fun n => .next (s.respond (rotl a n) 0)

/-- ROTR (R109). -/
def execRotr (a : Word) (n : Idx) (s : State) : Host.Outcome State Fault Refusal :=
  withShift n s fun n => .next (s.respond (rotr a n) 0)

end Sys2Proof.Machine
end

