-- ==== Sys2Proof/Machine/Functions.lean ====
section
/-!
DEFINITION. The six logical functions and the commands that expose them (spec/41_functions.md
R130 to R136). EXPAND and COMPRESS use these same functions.
-/

namespace Sys2Proof.Machine

open Sys2Proof

/-- `Ch(x,y,z) = (x AND y) XOR ((NOT x) AND z)` (R131). -/
def chFn (x y z : Word) : Word := (x &&& y) ^^^ (~~~x &&& z)

/-- `Maj(x,y,z) = (x AND y) XOR (x AND z) XOR (y AND z)` (R132). -/
def majFn (x y z : Word) : Word := (x &&& y) ^^^ (x &&& z) ^^^ (y &&& z)

/-- Σ0 (R133). -/
def bigSigma0 (x : Word) : Word := rotr x 2 ^^^ rotr x 13 ^^^ rotr x 22

/-- Σ1 (R134). -/
def bigSigma1 (x : Word) : Word := rotr x 6 ^^^ rotr x 11 ^^^ rotr x 25

/-- σ0: its third term is a shift, not a rotation (R135). -/
def smallSigma0 (x : Word) : Word := rotr x 7 ^^^ rotr x 18 ^^^ shr x 3

/-- σ1: its third term is a shift, not a rotation (R136). -/
def smallSigma1 (x : Word) : Word := rotr x 17 ^^^ rotr x 19 ^^^ shr x 10

/-- CH (R131). -/
def execCh (x y z : Word) (s : State) : Host.Outcome State Fault Refusal :=
  .next (s.respond (chFn x y z) 0)

/-- MAJ (R132). -/
def execMaj (x y z : Word) (s : State) : Host.Outcome State Fault Refusal :=
  .next (s.respond (majFn x y z) 0)

/-- BSIG0 (R133). -/
def execBsig0 (x : Word) (s : State) : Host.Outcome State Fault Refusal :=
  .next (s.respond (bigSigma0 x) 0)

/-- BSIG1 (R134). -/
def execBsig1 (x : Word) (s : State) : Host.Outcome State Fault Refusal :=
  .next (s.respond (bigSigma1 x) 0)

/-- SSIG0 (R135). -/
def execSsig0 (x : Word) (s : State) : Host.Outcome State Fault Refusal :=
  .next (s.respond (smallSigma0 x) 0)

/-- SSIG1 (R136). -/
def execSsig1 (x : Word) (s : State) : Host.Outcome State Fault Refusal :=
  .next (s.respond (smallSigma1 x) 0)

end Sys2Proof.Machine
end

