-- ==== Sys2Proof/Machine/Schedule.lean ====
section
/-!
DEFINITION. The message-schedule expander (spec/42_schedule.md R150 to R153). The recurrence is
the one spec/90_conflicts.md C1 settles: σ0 applies to W[t-15] alone.
-/

namespace Sys2Proof.Machine

open Sys2Proof

/-- The schedule indices 16..63, in increasing order (R150). -/
def schedIndices : List (Fin 64) := (List.finRange 64).drop 16

/-- `W[t] <- σ1(W[t-2]) + W[t-7] + σ0(W[t-15]) + W[t-16]`, for t from 16 up (R150). -/
def schedStep (w : Vector Word 64) (t : Fin 64) : Vector Word 64 :=
  if _h : 16 ≤ t.val then
    w.set t.val
      (smallSigma1 w[t.val - 2] + w[t.val - 7] + smallSigma0 w[t.val - 15] + w[t.val - 16])
  else w

/-- The whole expansion: W[16..63] from W[0..15] (R150). -/
def expandWords (w : Vector Word 64) : Vector Word 64 := schedIndices.foldl schedStep w

/-- One schedule step on the bank: the word is written and its flag set (R35, R150). No command
takes a step below 16, where the type admits one: it writes neither word nor flag (DESIGN CHOICE,
log entry 17). -/
def Bank.schedStep (b : Bank 64) (t : Fin 64) : Bank 64 :=
  ⟨Sys2Proof.Machine.schedStep b.word t,
    if 16 ≤ t.val then b.wr.set t.val true t.isLt else b.wr⟩

/-- The expansion of the bank, in place (R151). -/
def Bank.expand (b : Bank 64) : Bank 64 := schedIndices.foldl Bank.schedStep b

/-- EXPAND: all of W[0..15] must be written; then W[16..63] are written (R151). -/
def execExpand (s : State) : Host.Outcome State Fault Refusal :=
  withWritten blockElems s (.next ({ s with w := s.w.expand }.respond 0 0))

end Sys2Proof.Machine
end

