-- ==== Sys2Proof/Machine/Compress.lean ====
section
/-!
DEFINITION. One round, the 64-round compression, the feed-forward, and COMPRESS
(spec/43_compress.md R160 to R165), with the trace records it emits (spec/60_exceptions.md R252).
-/

namespace Sys2Proof.Machine

open Sys2Proof

/-- One round on the working values; every right-hand side uses the values before it (R160). -/
def roundStep (x : Work) (kt wt : Word) : Work :=
  let t1 := x.h + bigSigma1 x.e + chFn x.e x.f x.g + kt + wt
  let t2 := bigSigma0 x.a + majFn x.a x.b x.c
  ⟨t1 + t2, x.a, x.b, x.c, x.d + t1, x.e, x.f, x.g⟩

/-- Round t, which consumes `K[t]` and `W[t]` (R161). -/
def roundAt (k w : Vector Word 64) (x : Work) (t : Fin 64) : Work :=
  roundStep x k[t.val] w[t.val]

/-- Rounds in the order t = 0, 1, …, 63 (R161). -/
def runRounds (k w : Vector Word 64) (x : Work) : Work :=
  (List.finRange 64).foldl (roundAt k w) x

/-- Eight words as working values, index 0 being a (R10, R161). -/
def toWork (x : Vector Word 8) : Work := ⟨x[0], x[1], x[2], x[3], x[4], x[5], x[6], x[7]⟩

/-- Working values as eight words, a being index 0 (R10, R163). -/
def ofWork (x : Work) : Vector Word 8 := #v[x.a, x.b, x.c, x.d, x.e, x.f, x.g, x.h]

/-- Feed-forward: `S'[i] = S[i] + P[i]` (R162). -/
def feedForward (s p : Vector Word 8) : Vector Word 8 :=
  #v[s[0] + p[0], s[1] + p[1], s[2] + p[2], s[3] + p[3],
     s[4] + p[4], s[5] + p[5], s[6] + p[6], s[7] + p[7]]

/-- `compress(W, S, K)` of the source (R161). -/
def compressWords (w : Vector Word 64) (s : Vector Word 8) (k : Vector Word 64) : Vector Word 8 :=
  feedForward s (ofWork (runRounds k w (toWork s)))

/-- The trace records of the rounds listed, each with the values after its round (R252). -/
def roundRecords (k w : Vector Word 64) : Work → List (Fin 64) → List TraceRecord
  | _, [] => []
  | x, t :: ts => ⟨t, roundAt k w x t⟩ :: roundRecords k w (roundAt k w x t) ts

/-- The records one COMPRESS emits: 64 in round order if TRACE is present, else none (R252). -/
def compressRecords (cfg : Config) (w : Vector Word 64) (x : Work) : List TraceRecord :=
  if cfg.trace then roundRecords cfg.kTable w x (List.finRange 64) else []

/-- The state COMPRESS leaves, before its response: the schedule expanded, V the post-round
values, H the feed-forward of the H before (R163). -/
def State.compressed (s : State) : State :=
  let w := s.w.expand
  let x := toWork s.h.word
  let p := ofWork (runRounds s.cfg.kTable w.word x)
  { s with
    w := w
    v := writeAll p
    h := writeAll (feedForward s.h.word p)
    trace := s.trace ++ compressRecords s.cfg w.word x }

/-- COMPRESS: all of W[0..15], then all of H[0..7], must be written (R163). -/
def execCompress (s : State) : Host.Outcome State Fault Refusal :=
  withWritten (blockElems ++ hashElems) s (.next (s.compressed.respond 0 0))

end Sys2Proof.Machine
end

