-- ==== Sys2Proof/Machine/Flags.lean ====
section
/-!
DEFINITION. The block has no flags and no condition codes (spec/10_state.md R30). Its one status
computation is STATUS, a view of ERRCODE (R29).
-/

namespace Sys2Proof.Machine

open Sys2Proof

/-- The ERR bit of STATUS: 1 exactly when ERRCODE is not 0 (R29). -/
def errBit (errcode : Code) : BitVec 1 := if errcode = 0 then 0#1 else 1#1

/-- STATUS: bits 3:0 ERRCODE, bit 4 ERR, bits 31:5 zero (R29, R189). -/
def statusWord (errcode : Code) : Word := 0#27 ++ errBit errcode ++ errcode

end Sys2Proof.Machine
end

