-- ==== Sys2Proof/Machine/Control.lean ====
section
/-!
DEFINITION. The control and data-movement commands (spec/44_control.md R180 to R190).
-/

namespace Sys2Proof.Machine

open Sys2Proof

/-- W[i] of a block word index below 16 (R183). -/
def blockIndex (i : Fin 16) : Fin 64 := ⟨i.val, by omega⟩

/-- NOP (R181). -/
def execNop (s : State) : Host.Outcome State Fault Refusal :=
  .next (s.respond 0 0)

/-- INIT: H becomes IV_TABLE; W, V and ERRCODE are unchanged (R182). -/
def execInit (s : State) : Host.Outcome State Fault Refusal :=
  .next ({ s with h := writeAll s.cfg.ivTable }.respond 0 0)

/-- LOADW: W[i] for i below 16 (R183). -/
def execLoadw (i : Idx) (v : Word) (s : State) : Host.Outcome State Fault Refusal :=
  withIndex 16 i s fun i => .next ({ s with w := s.w.write (blockIndex i) v }.respond 0 0)

/-- SETH: H[i] for i below 8 (R184). -/
def execSeth (i : Idx) (v : Word) (s : State) : Host.Outcome State Fault Refusal :=
  withIndex 8 i s fun i => .next ({ s with h := s.h.write i v }.respond 0 0)

/-- READH (R185). -/
def execReadh (i : Idx) (s : State) : Host.Outcome State Fault Refusal :=
  withIndex 8 i s fun i => answerElem (.h i) s

/-- READW (R186). -/
def execReadw (i : Idx) (s : State) : Host.Outcome State Fault Refusal :=
  withIndex 64 i s fun i => answerElem (.w i) s

/-- READV (R187). -/
def execReadv (i : Idx) (s : State) : Host.Outcome State Fault Refusal :=
  withIndex 8 i s fun i => answerElem (.v i) s

/-- READK: K_TABLE is configuration, so it never faults (R188). -/
def execReadk (i : Idx) (s : State) : Host.Outcome State Fault Refusal :=
  withIndex 64 i s fun i => .next (s.respond s.cfg.kTable[i.val] 0)

/-- RDSTAT: the status word; ERRCODE is not cleared (R189). -/
def execRdstat (s : State) : Host.Outcome State Fault Refusal :=
  .next (s.respond (statusWord s.errcode) 0)

/-- CLRERR (R190). -/
def execClrerr (s : State) : Host.Outcome State Fault Refusal :=
  .next (s.clearError.respond 0 0)

end Sys2Proof.Machine
end

