-- ==== Sys2Proof/Machine/Dispatch.lean ====
section
/-!
DEFINITION. The dispatch: one arm per constructor of Instr, each one call of its meaning.
-/

namespace Sys2Proof.Machine

open Sys2Proof

def exec (i : Instr) (s : State) : Host.Outcome State Fault Refusal :=
  match i with
  | .nop => Sys2Proof.Machine.execNop s
  | .init => Sys2Proof.Machine.execInit s
  | .loadw k v => Sys2Proof.Machine.execLoadw k v s
  | .expand => Sys2Proof.Machine.execExpand s
  | .compress => Sys2Proof.Machine.execCompress s
  | .seth k v => Sys2Proof.Machine.execSeth k v s
  | .readh k => Sys2Proof.Machine.execReadh k s
  | .readw k => Sys2Proof.Machine.execReadw k s
  | .readv k => Sys2Proof.Machine.execReadv k s
  | .readk k => Sys2Proof.Machine.execReadk k s
  | .rdstat => Sys2Proof.Machine.execRdstat s
  | .clrerr => Sys2Proof.Machine.execClrerr s
  | .and a b => Sys2Proof.Machine.execAnd a b s
  | .or a b => Sys2Proof.Machine.execOr a b s
  | .xor a b => Sys2Proof.Machine.execXor a b s
  | .not a => Sys2Proof.Machine.execNot a s
  | .add a b => Sys2Proof.Machine.execAdd a b s
  | .shl a n => Sys2Proof.Machine.execShl a n s
  | .shr a n => Sys2Proof.Machine.execShr a n s
  | .rotl a n => Sys2Proof.Machine.execRotl a n s
  | .rotr a n => Sys2Proof.Machine.execRotr a n s
  | .ch x y z => Sys2Proof.Machine.execCh x y z s
  | .maj x y z => Sys2Proof.Machine.execMaj x y z s
  | .bsig0 x => Sys2Proof.Machine.execBsig0 x s
  | .bsig1 x => Sys2Proof.Machine.execBsig1 x s
  | .ssig0 x => Sys2Proof.Machine.execSsig0 x s
  | .ssig1 x => Sys2Proof.Machine.execSsig1 x s

end Sys2Proof.Machine
end

