-- ==== Sys2Proof/Machine/Channel.lean ====
section
/-!
DEFINITION. The command channel at transaction level (spec/00_scope.md R12, spec/30_encoding.md
R70 to R72): what one step does with the next event of the host.
-/

namespace Sys2Proof.Machine

open Sys2Proof

/-- An accepted command: decoded and run, or IllegalCommand raised (R79, R235). -/
def runCommand (c : Command) (s : State) : Host.Outcome State Fault Refusal :=
  match decode c with
  | .ok i => exec i s
  | .error e => .next (s.raise e.code)

/-- One transaction. With no event the block sits in IDLE and holds its state (R249). Reset is a
step of its own (R260). A command is accepted only in IDLE (R72); offered outside IDLE it is not an
issued command and stays offered (R265). -/
def transact (s : State) : Host.Outcome State Fault Refusal :=
  match s.input with
  | [] => .next s
  | .reset :: rest => .next { s with input := rest }.applyReset
  | .command c :: rest =>
    if s.fsm = .idle then runCommand c { s with input := rest } else .next s

/-- The host offers a command next, to a block that is ready for it. -/
def State.offer (s : State) (c : Command) : State :=
  { s with input := .command c :: s.input, fsm := .idle }

end Sys2Proof.Machine
end

