-- ==== Sys2Proof/Machine/Step.lean ====
section
/-!
DEFINITION. The step of the machine: one transaction (spec/00_scope.md R12).
-/

namespace Sys2Proof.Machine

open Sys2Proof

/-- One step: the next event of the host, with its response (R12, R72). -/
def step (s : State) : Host.Outcome State Fault Refusal := transact s

/-- `s` with the command of a table word as the next thing the host offers; DA, DB and DC beyond
`nbits` are 0 (log entry 4). -/
def State.withFetchWord (s : State) (nbits w : Nat) : State := s.offer (tableCommand nbits w)

end Sys2Proof.Machine
end

