-- ==== Sys2Proof/Machine/FixedWidth.lean ====
section
/-!
DEFINITION. FixedWidthWord at any width, the reference the width-32 commands are instances of
(spec/40_alu.md R110 to R114). It is the host's: no command reaches it.
-/

namespace Sys2Proof.Machine

open Sys2Proof

/-- A word of any width: `width` and `value` (R7, R110). The type admits a value of more bits than
the width, which is no word: no operation checks for it (DESIGN CHOICE, log entry 18). -/
structure FixedWord where
  width : Nat
  value : Nat
  deriving DecidableEq, Repr

/-- The value is an "unsigned magnitude strictly less than 2^width" (R7). -/
def FixedWord.legal (a : FixedWord) : Bool := decide (a.value < 2 ^ a.width)

/-- The two bases `construct` reads (R110). -/
inductive Base where
  | bin
  | hex
  deriving DecidableEq, Repr

/-- Inputs the host gives no result, each refused by name (spec/93_implementation_defined.md I9).
SAFE: no value is chosen for them. -/
inductive HostRefusal where
  /-- `construct` on a value of more than `width` bits. -/
  | valueTooWide
  /-- `construct` on a character that is no digit of the base. -/
  | badDigit
  /-- `construct` on a hex digit in the other case. -/
  | digitCase
  /-- `construct` on no digits at all (log entry 10). -/
  | noDigits
  deriving DecidableEq, Repr

/-- Why a host function stops: one of the source's errors, a refused input, a nonzero RCODE, or
the model's own stop on the block's side (R210, R238). -/
inductive HostStop where
  | error (e : ErrorCode)
  | refused (r : HostRefusal)
  | rcode (c : Code)
  | blockFault (f : Fault)
  | blockRefused (r : Refusal)
  | noResponse
  deriving DecidableEq, Repr

/-- The value of a digit in a base (R110, I9). -/
def digitValue (b : Base) (c : Char) : Except HostRefusal Nat :=
  let n := c.toNat
  match b with
  | .bin => if n = 48 ∨ n = 49 then .ok (n - 48) else .error .badDigit
  | .hex =>
    if 48 ≤ n ∧ n ≤ 57 then .ok (n - 48)
    else if 97 ≤ n ∧ n ≤ 102 then .ok (n - 87)
    else if 65 ≤ n ∧ n ≤ 70 then .error .digitCase
    else .error .badDigit

/-- The radix of a base. -/
def Base.radix : Base → Nat
  | .bin => 2
  | .hex => 16

/-- Read digits, most significant first, onto the number read so far. -/
def readDigits (b : Base) : Nat → List Char → Except HostRefusal Nat
  | v, [] => .ok v
  | v, c :: cs =>
    match digitValue b c with
    | .error r => .error r
    | .ok d => readDigits b (v * b.radix + d) cs

/-- The source's check on a width: positive and divisible by 4 (R110). -/
def checkWidth (w : Int) : Except HostStop Nat :=
  if 0 < w ∧ w % 4 = 0 then .ok w.toNat else .error (.error .invalidWidth)

/-- `construct(v, w)` from a number (R114 law 1). -/
def constructNat (v : Nat) (w : Int) : Except HostStop FixedWord :=
  match checkWidth w with
  | .error e => .error e
  | .ok w => if v < 2 ^ w then .ok ⟨w, v⟩ else .error (.refused .valueTooWide)

/-- `construct(digits, w, base)` (R110). Where several of I9's cases hold of one input, the spec
names no order: the model reports the first offending character, and a value of too many bits only
when every digit is read (DESIGN CHOICE, log entry 10). -/
def construct (ds : List Char) (w : Int) (b : Base) : Except HostStop FixedWord :=
  match checkWidth w with
  | .error e => .error e
  | .ok _ =>
    if ds = [] then .error (.refused .noDigits)
    else match readDigits b 0 ds with
      | .error r => .error (.refused r)
      | .ok v => constructNat v w

/-- `toInt` (R112). -/
def FixedWord.toInt (a : FixedWord) : Nat := a.value

/-- A hex digit in lower case (R112). -/
def hexDigit (d : Nat) : Char := if d < 10 then Char.ofNat (48 + d) else Char.ofNat (87 + d)

/-- `k` hex digits of a number, most significant first. -/
def hexDigits : Nat → Nat → List Char
  | 0, _ => []
  | k + 1, v => hexDigits k (v / 16) ++ [hexDigit (v % 16)]

/-- `toHex`: exactly `width / 4` lower-case digits, no 0x before them (R112). -/
def FixedWord.toHex (a : FixedWord) : List Char := hexDigits (a.width / 4) a.value

/-- A binary operation: equal widths, or WidthMismatch (R111, spec/90_conflicts.md C3). -/
def FixedWord.binary (op : Nat → Nat → Nat → Nat) (a b : FixedWord) : Except HostStop FixedWord :=
  if a.width = b.width then .ok ⟨a.width, op a.width a.value b.value⟩
  else .error (.error .widthMismatch)

/-- `bitwiseAnd` (R101, R111). -/
def FixedWord.bitwiseAnd : FixedWord → FixedWord → Except HostStop FixedWord :=
  FixedWord.binary fun _ x y => x &&& y

/-- `bitwiseOr` (R102, R111). -/
def FixedWord.bitwiseOr : FixedWord → FixedWord → Except HostStop FixedWord :=
  FixedWord.binary fun _ x y => x ||| y

/-- `bitwiseXor` (R103, R111). -/
def FixedWord.bitwiseXor : FixedWord → FixedWord → Except HostStop FixedWord :=
  FixedWord.binary fun _ x y => x ^^^ y

/-- `addModular` (R105, R111). -/
def FixedWord.addModular : FixedWord → FixedWord → Except HostStop FixedWord :=
  FixedWord.binary fun w x y => (x + y) % 2 ^ w

/-- `bitwiseNot` (R104, R111). -/
def FixedWord.bitwiseNot (a : FixedWord) : FixedWord := ⟨a.width, 2 ^ a.width - 1 - a.value⟩

/-- A shift or rotation: `n < width`, or InvalidShiftAmount (R113). -/
def FixedWord.shifted (f : Nat → Nat → Nat → Nat) (a : FixedWord) (n : Nat) :
    Except HostStop FixedWord :=
  if n < a.width then .ok ⟨a.width, f a.width a.value n⟩ else .error (.error .invalidShiftAmount)

/-- `shiftLeftLogical` (R106). -/
def FixedWord.shiftLeft : FixedWord → Nat → Except HostStop FixedWord :=
  FixedWord.shifted fun w x n => x * 2 ^ n % 2 ^ w

/-- `shiftRightLogical` (R107). -/
def FixedWord.shiftRight : FixedWord → Nat → Except HostStop FixedWord :=
  FixedWord.shifted fun _ x n => x / 2 ^ n

/-- `rotateLeft`, n = 0 being its own case (R108). -/
def FixedWord.rotateLeft : FixedWord → Nat → Except HostStop FixedWord :=
  FixedWord.shifted fun w x n => if n = 0 then x else (x * 2 ^ n % 2 ^ w) ||| (x / 2 ^ (w - n))

/-- `rotateRight`, n = 0 being its own case (R109). -/
def FixedWord.rotateRight : FixedWord → Nat → Except HostStop FixedWord :=
  FixedWord.shifted fun w x n => if n = 0 then x else (x / 2 ^ n) ||| (x * 2 ^ (w - n) % 2 ^ w)

end Sys2Proof.Machine
end

