-- ==== Sys2Proof/Machine/Pipeline.lean ====
section
/-!
DEFINITION. The host's duties around the block (spec/45_host.md R210 to R220): encode, pad, parse,
drive the block one command at a time, serialise. They are outside the block (R5 item e); they are
here so that a claim can speak of a whole hash (R271).
-/

namespace Sys2Proof.Machine

open Sys2Proof

/-- The bytes of a text, as UTF-8 (R212). -/
def textBytes (s : String) : List Byte := s.toUTF8.toList.map UInt8.toBitVec

/-- The `n` low bits of a number, most significant first. -/
def bitsBE (n v : Nat) : List Bool := (List.range n).map fun k => v.testBit (n - 1 - k)

/-- `encodeBits`: each byte most significant bit first, in byte order (R211). -/
def encodeBits (message : List Byte) : List Bool := message.flatMap fun b => bitsBE 8 b.toNat

/-- The least `k` with `L + 1 + k ≡ 448 (mod 512)` (R213). -/
def padZeros (len : Nat) : Nat := ((448 - ((len : Int) + 1)) % 512).toNat

/-- `pad`: MessageTooLong from 2^64 bits up, else a 1, zeros, and the length as 64 bits big-endian
(R213, R214). -/
def pad (bits : List Bool) : Except HostStop (List Bool) :=
  if bits.length < 2 ^ 64 then
    .ok (bits ++ true :: List.replicate (padZeros bits.length) false ++ bitsBE 64 bits.length)
  else .error (.error .messageTooLong)

/-- The number a bit list spells, first bit most significant. -/
def natOfBits (bits : List Bool) : Nat := bits.foldl (fun v b => 2 * v + b.toNat) 0

/-- A block as the host holds it: its words in order (R215). -/
abbrev BlockWords := List Word

/-- `parseBlocks`: word j of block b is bits 512b + 32j to 512b + 32j + 31 (R215). Bits past the
last whole block are dropped; pad leaves none (DESIGN CHOICE, log entry 18). -/
def parseBlocks (padded : List Bool) : List BlockWords :=
  (List.range (padded.length / 512)).map fun b =>
    (List.range Config.nBlockWords).map fun j =>
      BitVec.ofNat 32 (natOfBits ((padded.drop (512 * b + 32 * j)).take 32))

/-- The packing of four message bytes into a word, big-endian (R53). -/
def packBytes (b0 b1 b2 b3 : Byte) : Word :=
  (b0.setWidth 32 <<< 24) ||| (b1.setWidth 32 <<< 16) ||| (b2.setWidth 32 <<< 8) ||| b3.setWidth 32

/-- `LOADBLK` of a block: one LOADW a word, in order (R88). -/
def loadBlockCommands (b : BlockWords) : List Command :=
  b.zipIdx.map fun p => encode (.loadw (BitVec.ofNat 8 p.2) p.1)

/-- `LOADH`: one SETH a word, in order (R88). -/
def loadHashCommands (h : List Word) : List Command :=
  h.zipIdx.map fun p => encode (.seth (BitVec.ofNat 8 p.2) p.1)

/-- `BLOCK`: the block's LOADWs, then COMPRESS (R88). -/
def blockCommands (b : BlockWords) : List Command := loadBlockCommands b ++ [encode .compress]

/-- `DIGEST`: READH 0 to READH 7 (R88). -/
def digestCommands : List Command :=
  (List.range Config.nHash).map fun i => encode (.readh (BitVec.ofNat 8 i))

/-- `hash(blocks)` as a command sequence: INIT, then each block in message order (R217). -/
def hashCommands (blocks : List BlockWords) : List Command :=
  encode .init :: blocks.flatMap blockCommands

/-- Issue one command and wait for its response; a nonzero RCODE is a hard failure (R210 item 6,
R219, R238). On a block outside IDLE, where no host issues one, the command is not taken and the last
earlier response is looked at, if there is one (DESIGN CHOICE, log entry 18). -/
def issue (c : Command) (s : State) : Except HostStop (State × Response) :=
  match step { s with input := .command c :: s.input } with
  | .fault f => .error (.blockFault f)
  | .refused r => .error (.blockRefused r)
  | .next t =>
    match t.responses.getLast? with
    | none => .error .noResponse
    | some r => if r.code = 0 then .ok (t, r) else .error (.rcode r.code)

/-- Issue commands in order, each after the response before it; the results in order (R219). -/
def drive : List Command → State → Except HostStop (State × List Word)
  | [], s => .ok (s, [])
  | c :: cs, s =>
    match issue c s with
    | .error e => .error e
    | .ok (t, r) =>
      match drive cs t with
      | .error e => .error e
      | .ok (u, rs) => .ok (u, r.result :: rs)

/-- `digestHex`: each word's eight lower-case digits, H[0] first (R216). -/
def digestHex (words : List Word) : List Char :=
  words.flatMap fun w => (FixedWord.mk 32 w.toNat).toHex

/-- `fullHash` on a block in state `s`: the 64 digits, or why it failed (R218). -/
def fullHash (message : List Byte) (s : State) : Except HostStop (List Char) :=
  match pad (encodeBits message) with
  | .error e => .error e
  | .ok bits =>
    match drive (hashCommands (parseBlocks bits)) s with
    | .error e => .error e
    | .ok (t, _) =>
      match drive digestCommands t with
      | .error e => .error e
      | .ok (_, words) => .ok (digestHex words)

end Sys2Proof.Machine
end

