-- ==== Sys2Proof/Machine/Assembler.lean ====
section
/-!
DEFINITION. The assembler's notation (spec/30_encoding.md R87, R88): one line of text to the
commands it stands for. It is a host tool; the block never sees text.
-/

namespace Sys2Proof.Machine

open Sys2Proof

/-- Why the assembler refuses a line (R87). -/
inductive AsmError where
  /-- No mnemonic, pseudo-command or directive of that name. -/
  | unknownMnemonic
  /-- The operands are not those of the form. -/
  | wrongOperands
  /-- A literal is neither decimal nor 0x hex. -/
  | badLiteral
  /-- A literal does not fit its field. -/
  | literalTooWide
  deriving DecidableEq, Repr

/-- The operand forms of R87, by what each operand is. -/
inductive AsmForm where
  | plain       -- M
  | index       -- M i
  | indexWord   -- M i, v
  | words2      -- M a, b
  | words1      -- M a
  | wordShift   -- M a, n
  | words3      -- M x, y, z
  deriving DecidableEq, Repr

/-- Mnemonic, opcode and form (R78, R87). -/
def asmTable : List (List Char × Byte × AsmForm) := [
  (['N','O','P'], 0x00, .plain), (['I','N','I','T'], 0x01, .plain),
  (['L','O','A','D','W'], 0x02, .indexWord), (['E','X','P','A','N','D'], 0x03, .plain),
  (['C','O','M','P','R','E','S','S'], 0x04, .plain), (['S','E','T','H'], 0x05, .indexWord),
  (['R','E','A','D','H'], 0x06, .index), (['R','E','A','D','W'], 0x07, .index),
  (['R','E','A','D','V'], 0x08, .index), (['R','E','A','D','K'], 0x09, .index),
  (['R','D','S','T','A','T'], 0x0A, .plain), (['C','L','R','E','R','R'], 0x0B, .plain),
  (['A','N','D'], 0x10, .words2), (['O','R'], 0x11, .words2), (['X','O','R'], 0x12, .words2),
  (['N','O','T'], 0x13, .words1), (['A','D','D'], 0x14, .words2),
  (['S','H','L'], 0x15, .wordShift), (['S','H','R'], 0x16, .wordShift),
  (['R','O','T','L'], 0x17, .wordShift), (['R','O','T','R'], 0x18, .wordShift),
  (['C','H'], 0x20, .words3), (['M','A','J'], 0x21, .words3),
  (['B','S','I','G','0'], 0x22, .words1), (['B','S','I','G','1'], 0x23, .words1),
  (['S','S','I','G','0'], 0x24, .words1), (['S','S','I','G','1'], 0x25, .words1)]

/-- A literal of `n` bits: refused when it does not fit (R87). -/
def literal (n v : Nat) : Except AsmError (BitVec n) :=
  if v < 2 ^ n then .ok (BitVec.ofNat n v) else .error .literalTooWide

/-- Literals of 32 bits, in order. -/
def wordLiterals : List Nat → Except AsmError (List Word)
  | [] => .ok []
  | v :: vs =>
    match literal 32 v, wordLiterals vs with
    | .ok w, .ok ws => .ok (w :: ws)
    | .error e, _ => .error e
    | _, .error e => .error e

/-- A command from an opcode, an IDX literal and word literals; ports not named are 0 (R87). -/
def asmCommand (opc : Byte) (idx : Nat) (ws : List Nat) : Except AsmError Command :=
  match literal 8 idx, wordLiterals ws with
  | .ok i, .ok ws =>
    .ok ⟨commandWord opc i, ws.getD 0 0, ws.getD 1 0, ws.getD 2 0⟩
  | .error e, _ => .error e
  | _, .error e => .error e

/-- One machine command from its form and operands (R87). An IDX that fits 8 bits but is out of
range is legal to emit. -/
def assembleForm (opc : Byte) (f : AsmForm) (ops : List Nat) : Except AsmError Command :=
  match f, ops with
  | .plain, [] => asmCommand opc 0 []
  | .index, [i] => asmCommand opc i []
  | .indexWord, [i, v] => asmCommand opc i [v]
  | .words2, [a, b] => asmCommand opc 0 [a, b]
  | .words1, [a] => asmCommand opc 0 [a]
  | .wordShift, [a, n] => asmCommand opc n [a]
  | .words3, [x, y, z] => asmCommand opc 0 [x, y, z]
  | _, _ => .error .wrongOperands

/-- A list of word operands of a fixed number, handed to a command list. -/
def asmWords (n : Nat) (ops : List Nat) (k : List Word → List Command) :
    Except AsmError (List Command) :=
  if ops.length = n then
    match wordLiterals ops with
    | .ok ws => .ok (k ws)
    | .error e => .error e
  else .error .wrongOperands

/-- One command, as a list. -/
def single (c : Except AsmError Command) : Except AsmError (List Command) :=
  match c with
  | .ok c => .ok [c]
  | .error e => .error e

/-- A line's name and operands to its commands: the pseudo-commands of R88, the directive `.word`
and the 27 mnemonics (R87). The spec orders no refusals: an unknown name comes before a wrong number
of operands, and that before a literal too wide (DESIGN CHOICE, log entry 10). -/
def assembleNamed (name : List Char) (ops : List Nat) : Except AsmError (List Command) :=
  if name = ['L','O','A','D','B','L','K'] then asmWords 16 ops loadBlockCommands
  else if name = ['L','O','A','D','H'] then asmWords 8 ops loadHashCommands
  else if name = ['B','L','O','C','K'] then asmWords 16 ops blockCommands
  else if name = ['D','I','G','E','S','T'] then asmWords 0 ops fun _ => digestCommands
  else if name = ['R','O','T'] then single (assembleForm 0x18 .wordShift ops)
  else if name = ['S','H','R','3'] then
    match ops with
    | [x] => single (assembleForm 0x16 .wordShift [x, 3])
    | _ => .error .wrongOperands
  else if name = ['.','w','o','r','d'] then
    asmWords 1 ops fun ws => [⟨ws.getD 0 0, 0, 0, 0⟩]
  else match asmTable.find? fun r => r.1 = name with
    | some (_, opc, f) => single (assembleForm opc f ops)
    | none => .error .unknownMnemonic

/-- A digit of a literal in a radix of at most 16; hex digits in either case (log entry 10). -/
def literalDigit (radix : Nat) (c : Char) : Option Nat :=
  let n := c.toNat
  let d := if 48 ≤ n ∧ n ≤ 57 then n - 48 else if 97 ≤ n ∧ n ≤ 102 then n - 87
    else if 65 ≤ n ∧ n ≤ 70 then n - 55 else 16
  if d < radix then some d else none

/-- Digits of a literal onto the number read so far. -/
def literalDigits (radix : Nat) : Nat → List Char → Option Nat
  | v, [] => some v
  | v, c :: cs =>
    match literalDigit radix c with
    | some d => literalDigits radix (v * radix + d) cs
    | none => none

/-- A literal: decimal, or hex after `0x` (R87). -/
def parseLiteral : List Char → Option Nat
  | [] => none
  | ['0', 'x'] => none
  | '0' :: 'x' :: ds => literalDigits 16 0 ds
  | ds => literalDigits 10 0 ds

/-- The characters before the first separator, and those after it if there is one. -/
def splitFirst (sep : Char) : List Char → List Char × Option (List Char)
  | [] => ([], none)
  | c :: cs =>
    if c = sep then ([], some cs)
    else match splitFirst sep cs with
      | (a, b) => (c :: a, b)

/-- The pieces of a character list between separators. -/
def splitAll (sep : Char) : List Char → List (List Char)
  | [] => [[]]
  | c :: cs =>
    match splitAll sep cs with
    | [] => [[c]]
    | p :: ps => if c = sep then [] :: p :: ps else (c :: p) :: ps

/-- The operands of a line: separated by commas, spaces around them dropped (R87). -/
def parseOperands (cs : List Char) : Except AsmError (List Nat) :=
  let cs := cs.filter fun c => c ≠ ' '
  if cs = [] then .ok []
  else match (splitAll ',' cs).mapM parseLiteral with
    | some vs => .ok vs
    | none => .error .badLiteral

/-- One line of text: `MNEMONIC operands` (R87). A bad literal is reported before anything the name
decides (DESIGN CHOICE, log entry 10). -/
def assembleLine (line : List Char) : Except AsmError (List Command) :=
  match splitFirst ' ' (line.dropWhile fun c => c = ' ') with
  | (name, rest) =>
    match parseOperands (rest.getD []) with
    | .ok ops => assembleNamed name ops
    | .error e => .error e

/-- A program text, one command a line, in order (R87). A text with refused lines gives no command
and the refusal of the first of them (DESIGN CHOICE, log entry 10). -/
def assemble : List (List Char) → Except AsmError (List Command)
  | [] => .ok []
  | l :: ls =>
    match assembleLine l, assemble ls with
    | .ok c, .ok cs => .ok (c ++ cs)
    | .error e, _ => .error e
    | _, .error e => .error e

end Sys2Proof.Machine
end

