-- ==== Sys2Proof/Machine/Boot.lean ====
section
/-!
DEFINITION. Building a block (spec/00_scope.md R6, spec/60_exceptions.md R231,
spec/70_reset_and_hazards.md R263 item 1), and several blocks side by side
(spec/20_memory.md R66, spec/60_exceptions.md R247).
-/

namespace Sys2Proof.Machine

open Sys2Proof

/-- The parameters of R6, each an argument by its name, and `HOST_BINDING` (R58). `cfg` holds
`K_TABLE`, `IV_TABLE` and `TRACE`. -/
structure Params where
  width       : Int
  nRounds     : Nat
  nSched      : Nat
  nBlockWords : Nat
  nHash       : Nat
  shamtBits   : Nat
  cfg         : Config
  nEngines    : Nat
  latencies   : Latencies
  hostBinding : HostBinding
  deriving DecidableEq, Repr

/-- The parameters of this hardware (R6). What the spec gives no value, the number of instances
(I17), the latencies (I5) and the binding (I6), stays an argument. -/
def Params.std (nEngines : Nat) (latencies : Latencies) (hostBinding : HostBinding) : Params :=
  ⟨32, 64, 64, 16, 8, 8, Config.std, nEngines, latencies, hostBinding⟩

/-- `LAT_<mnemonic>` of a command (R6). No rule and no meaning reads it (R269). -/
def latencyOf (l : Latencies) : Instr → Nat
  | .nop => l.nop
  | .init => l.init
  | .loadw _ _ => l.loadw
  | .expand => l.expand
  | .compress => l.compress
  | .seth _ _ => l.seth
  | .readh _ => l.readh
  | .readw _ => l.readw
  | .readv _ => l.readv
  | .readk _ => l.readk
  | .rdstat => l.rdstat
  | .clrerr => l.clrerr
  | .and _ _ => l.and
  | .or _ _ => l.or
  | .xor _ _ => l.xor
  | .not _ => l.not
  | .add _ _ => l.add
  | .shl _ _ => l.shl
  | .shr _ _ => l.shr
  | .rotl _ _ => l.rotl
  | .rotr _ _ => l.rotr
  | .ch _ _ _ => l.ch
  | .maj _ _ _ => l.maj
  | .bsig0 _ => l.bsig0
  | .bsig1 _ => l.bsig1
  | .ssig0 _ => l.ssig0
  | .ssig1 _ => l.ssig1

/-- The source's construction rule for a width (R6, R110). -/
def widthAllowed (w : Int) : Bool := 0 < w && w % 4 == 0

/-- The parameters R6 fixes beside the width have R6's values, which are the sizes of the state. -/
def Params.fixedValues (p : Params) : Bool :=
  p.nRounds == Config.nRounds && p.nSched == Config.nSched &&
    p.nBlockWords == Config.nBlockWords && p.nHash == Config.nHash &&
    p.shamtBits == Config.shamtBits

/-- The configuration check: InvalidWidth is a check on the configuration and never a command's
error (R231). The order of the checks and the names of the refusals after the first are the
model's choice (DESIGN CHOICE, log entry 14). -/
def Params.check (p : Params) : Except Refusal Config :=
  if !widthAllowed p.width then .error .invalidWidth
  else if p.width ≠ 32 then .error .widthOutsideSpec
  else if !p.fixedValues then .error .parameterOutsideSpec
  else if !p.latencies.legal then .error .latencyBelowOne
  else if p.nEngines = 0 then .error .noEngines
  else .ok p.cfg

/-- One instance of the block: running, or stopped for good by a fault (R12). No step refuses, so
`refused` is never reached. -/
inductive Engine where
  | running (s : State)
  | faulted (f : Fault)
  | refused (r : Refusal)
  deriving DecidableEq, Repr

/-- A step of one instance. A stopped instance has no further step and keeps its record (R12,
spec/93_implementation_defined.md I22). -/
def Engine.step : Engine → Engine
  | .running s =>
    match Machine.step s with
    | .next t => .running t
    | .fault f => .faulted f
    | .refused r => .refused r
  | .faulted f => .faulted f
  | .refused r => .refused r

/-- Independent instances: each has its own state, and they share nothing that is written (R66).
Each serves one command stream (log entry 9). `params` is what they were built from. -/
structure Engines where
  params : Params
  engine : List Engine
  deriving DecidableEq, Repr

/-- The instances after reset: `N_ENGINES` of them over one configuration (R66). -/
def Params.build (p : Params) : Except Refusal Engines :=
  match p.check with
  | .error r => .error r
  | .ok cfg => .ok ⟨p, List.replicate p.nEngines (.running (State.resetWith cfg))⟩

/-- A step of instance `i`; the order between instances is whatever the caller picks (R66). An
index with no instance behind it moves nothing (log entry 9). The spec does not say what a fault of
one instance does to the others; in the model it stops that one alone, and every other can still
step (DEDUCED from R66 and I17, log entry 15). -/
def Engines.stepAt (e : Engines) (i : Nat) : Engines :=
  match e.engine[i]? with
  | none => e
  | some x => { e with engine := e.engine.set i x.step }

end Sys2Proof.Machine
end

