-- ==== Sys2Proof/Machine/Ports.lean ====
section
/-!
DEFINITION. The block at its signals: the handshake (spec/30_encoding.md R71, R72), the sequencing
state walking EXP, RND and FF (spec/10_state.md R32, spec/43_compress.md R164), reset as a signal
and in the middle of a command (spec/70_reset_and_hazards.md R261, R262), and the trace port
(spec/60_exceptions.md R251, R252). It sits beside the transaction-level step and refines it: it
runs the same operations one clock edge at a time. A latency is whatever the `stall` inputs make it,
at least one edge and without bound (R269).
-/

namespace Sys2Proof.Machine

open Sys2Proof

/-- The input signals at one rising edge (R71). `stall` is no port: it is the model's free choice
that the block makes no progress at this edge, which stands for `LAT_*` (R6, log entry 7). -/
structure PortIn where
  rst      : Bool
  cmdValid : Bool
  cmd      : Command
  rspReady : Bool
  stall    : Bool
  deriving DecidableEq, Repr

/-- The block between two edges. -/
structure PortState where
  /-- The architectural state (R20). -/
  arch : State
  /-- The working values a..h while rounds run (R11). -/
  work : Work
  /-- Whether the walk is a COMPRESS (it goes on to the rounds) or an EXPAND. The spec names `fsm`
  as the only sequencing state (R31) and does not say how an `EXP(t)` of the one is told from an
  `EXP(t)` of the other; this bit is the model's own (DESIGN CHOICE, log entry 16). -/
  compressing : Bool
  /-- The response that waits for `rsp_ready` (R72). -/
  rsp : Option Response
  /-- Whether `rsp_valid` has risen for it. -/
  rspValid : Bool
  /-- The trace record of this cycle (R252). -/
  traceOut : Option TraceRecord
  deriving DecidableEq, Repr

/-- The trace outputs during a cycle (R71, R251). -/
structure TraceOut where
  valid : Bool
  round : BitVec 6
  state : BitVec 256
  deriving DecidableEq, Repr

/-- The output signals during a cycle (R71). The trace outputs do not exist in a block built
without `TRACE` (R251). -/
structure PortOut where
  cmdReady  : Bool
  rspValid  : Bool
  rspResult : Word
  rspCode   : Code
  trace     : Option TraceOut
  deriving DecidableEq, Repr

/-- `cmd_ready` apart from reset: IDLE, and no response waiting (R72). -/
def PortState.ready (p : PortState) : Bool := p.arch.fsm == .idle && p.rsp.isNone

/-- The 256 bits of `trace_state`: a in bits 255:224, h in bits 31:0 (R71). -/
def traceBits (x : Work) : BitVec 256 :=
  x.a ++ x.b ++ x.c ++ x.d ++ x.e ++ x.f ++ x.g ++ x.h

/-- The trace outputs: a record shows for the one cycle after its round (R252), `rst` high or not;
with none, the round and state outputs are 0 (DESIGN CHOICE, log entry 11). -/
def PortState.traceSignals (p : PortState) : TraceOut where
  valid := p.traceOut.isSome
  round := BitVec.ofNat 6 ((p.traceOut.map fun r => r.round.val).getD 0)
  state := (p.traceOut.map fun r => traceBits r.work).getD 0

/-- The outputs. While `rst` is 1, `cmd_ready` and `rsp_valid` are 0 (R262). `rsp_result` and
`rsp_code` show a waiting response whether or not `rsp_valid` is 1, `rst` high or a stall holding
it at 0, and are 0 while none waits (DESIGN CHOICE, log entry 11). The trace outputs exist exactly
with `TRACE` (R251). -/
def PortState.out (p : PortState) (rst : Bool) : PortOut where
  cmdReady := !rst && p.ready
  rspValid := !rst && p.rspValid
  rspResult := (p.rsp.map Response.result).getD 0
  rspCode := (p.rsp.map Response.code).getD 0
  trace := if p.arch.cfg.trace then some p.traceSignals else none

/-- The working values after reset and before the first compression: no command reads them
(R33; DESIGN CHOICE, log entry 8). -/
def Work.blank : Work := ⟨0, 0, 0, 0, 0, 0, 0, 0⟩

/-- The block as a reset edge leaves it: any command in flight and any response is dropped
(R260, R261). -/
def PortState.reset (p : PortState) : PortState :=
  ⟨p.arch.applyReset, Work.blank, false, none, false, none⟩

/-- The command in flight completes: its state is in, its response waits (R72, R164 item 2). The
working values stay as the last round left them; the spec says nothing of a..h after a COMPRESS
beyond V (DESIGN CHOICE, log entry 8). -/
def PortState.complete (p : PortState) (t : State) (stall : Bool) : PortState :=
  { p with
    arch := { t with fsm := .idle }, rsp := t.responses.getLast?, rspValid := !stall,
    traceOut := none }

/-- The round number or schedule index after `t`, for t below 63. -/
def nextIndex (t : Fin 64) : Fin 64 := ⟨(t.val + 1) % 64, Nat.mod_lt _ (by decide)⟩

/-- One edge of the walk `EXP(16) … EXP(63)`, `RND(0) … RND(63)`, `FF`, `IDLE` (R164). EXPAND
returns to IDLE after `EXP(63)` (log entry 12). -/
def PortState.advance (p : PortState) : PortState :=
  match p.arch.fsm with
  | .idle => { p with traceOut := none }
  | .exp t =>
    let s := { p.arch with w := p.arch.w.schedStep t }
    if t.val < 63 then
      { p with arch := { s with fsm := .exp (nextIndex t) }, traceOut := none }
    else if p.compressing then
      { p with arch := { s with fsm := .rnd 0 }, work := toWork s.h.word, traceOut := none }
    else p.complete (s.respond 0 0) false
  | .rnd t =>
    let x := roundAt p.arch.cfg.kTable p.arch.w.word p.work t
    let records := if p.arch.cfg.trace then [⟨t, x⟩] else []
    let fsm := if t.val < 63 then Fsm.rnd (nextIndex t) else Fsm.ff
    { p with
      arch := { p.arch with fsm := fsm, trace := p.arch.trace ++ records }
      work := x
      traceOut := records.head? }
  | .ff =>
    let s := { p.arch with
      v := writeAll (ofWork p.work)
      h := writeAll (feedForward p.arch.h.word (ofWork p.work)) }
    p.complete (s.respond 0 0) false

/-- A command is accepted: EXPAND and COMPRESS make their checks and start their walk at EXP(16);
every other command is done at this edge (R72, R164). -/
def PortState.accept (p : PortState) (c : Command) (stall : Bool) :
    Host.Outcome PortState Fault Refusal :=
  let start (checks : List Elem) (compressing : Bool) : Host.Outcome PortState Fault Refusal :=
    match p.arch.firstUnwritten checks with
    | some x => .fault (.unwritten x)
    | none =>
      .next { p with
        arch := { p.arch with fsm := .exp 16 }, compressing := compressing, traceOut := none }
  match decode c with
  | .ok .expand => start blockElems false
  | .ok .compress => start (blockElems ++ hashElems) true
  | _ =>
    match runCommand c p.arch with
    | .next t => .next (p.complete t stall)
    | .fault f => .fault f
    | .refused r => .refused r

/-- One rising edge of `clk` (R71, R72, R262). In states that no run reaches, a response waiting
in the middle of a walk holds the walk back (DESIGN CHOICE, log entry 17). -/
def PortState.edge (p : PortState) (i : PortIn) : Host.Outcome PortState Fault Refusal :=
  if i.rst then .next p.reset
  else match p.rsp with
    | some _ =>
      if p.rspValid then
        if i.rspReady then .next { p with rsp := none, rspValid := false, traceOut := none }
        else .next { p with traceOut := none }
      else .next { p with rspValid := !i.stall, traceOut := none }
    | none =>
      if p.arch.fsm = .idle then
        if i.cmdValid then p.accept i.cmd i.stall else .next { p with traceOut := none }
      else if i.stall then .next { p with traceOut := none }
      else .next p.advance

/-- Edges in order, stopping at the first fault. -/
def PortState.edges (p : PortState) : List PortIn → Host.Outcome PortState Fault Refusal
  | [] => .next p
  | i :: is =>
    match p.edge i with
    | .next q => q.edges is
    | .fault f => .fault f
    | .refused r => .refused r

end Sys2Proof.Machine
end

