-- ==== Sys2Proof/Safety.lean ====
section
/-!
DEFINITION. The terms the claims use: what a command leaves unchanged, the invariants of a block
(spec/10_state.md R28, R32), agreement on what is written (spec/10_state.md R35), and runs with
their premises (spec/70_reset_and_hazards.md R270, R271).
-/

namespace Sys2Proof.Machine

open Sys2Proof

/-- The state `s` with one more response and nothing else changed: what a command that writes no
state leaves (R86, R115). -/
def State.answered (s : State) (r : Response) : State := { s with responses := s.responses ++ [r] }

/-- The state an erroring command leaves: RESULT 0 and the code in the response, the first error
kept in ERRCODE, nothing else written (R237). -/
def State.errored (s : State) (code : Code) : State :=
  { s with
    errcode := if s.errcode = 0 then code else s.errcode
    responses := s.responses ++ [⟨0, code⟩] }

/-- A command word with opcode `opc` that does not use IDX: the word `opc` alone is the command,
whatever stands on the ports `build` ignores; every other word with that opcode raises
IllegalCommand, code 5, in every state (R78, R79). -/
def encodesPlain (opc : Nat) (build : Word → Word → Word → Instr) : Prop :=
  ∀ x y z : Word, decode ⟨BitVec.ofNat 32 opc, x, y, z⟩ = .ok (build x y z) ∧
    ∀ w : Word, w.toNat % 256 = opc → w.toNat ≠ opc →
      ∀ s : State, runCommand ⟨w, x, y, z⟩ s = .next (s.errored 5)

/-- A command word with opcode `opc` that uses IDX: `(n << 8) | opc` is the command with that IDX;
a word with that opcode and RSV ≠ 0 raises IllegalCommand, code 5, in every state (R78, R79). -/
def encodesIndexed (opc : Nat) (build : Idx → Word → Word → Word → Instr) : Prop :=
  ∀ (n : Idx) (x y z : Word),
    decode ⟨BitVec.ofNat 32 (n.toNat * 256 + opc), x, y, z⟩ = .ok (build n x y z) ∧
    ∀ w : Word, w.toNat % 256 = opc → 65536 ≤ w.toNat →
      ∀ s : State, runCommand ⟨w, x, y, z⟩ s = .next (s.errored 5)

/-- The opcodes of R78 whose command does not use IDX. -/
def unusedIdxOpcodes : List Nat := [0x00, 0x01, 0x03, 0x04, 0x0A, 0x0B, 0x10, 0x11, 0x12, 0x13,
  0x14, 0x20, 0x21, 0x22, 0x23, 0x24, 0x25]

/-- The index opcodes of R78 with their `BOUND` (R79, R83). -/
def indexBounds : List (Nat × Nat) :=
  [(0x02, 16), (0x05, 8), (0x06, 8), (0x07, 64), (0x08, 8), (0x09, 64)]

/-- The shift opcodes of R78. -/
def shiftOpcodes : List Nat := [0x15, 0x16, 0x17, 0x18]

/-- The five checks of R79 in their order, on the numbers of the fields: the code of the first that
fails, 5 IllegalCommand, 6 IndexOutOfRange or 3 InvalidShiftAmount (R230). -/
def firstFailingCheck (w : Word) : Option Code :=
  let opc := w.toNat % 256
  let idx := w.toNat / 256 % 256
  if w.toNat / 65536 ≠ 0 then some 5
  else if opc ∉ unusedIdxOpcodes ++ indexBounds.map Prod.fst ++ shiftOpcodes then some 5
  else if opc ∈ unusedIdxOpcodes ∧ idx ≠ 0 then some 5
  else if indexBounds.any (fun p => p.1 = opc ∧ p.2 ≤ idx) then some 6
  else if opc ∈ shiftOpcodes ∧ 32 ≤ idx then some 3
  else none

/-- How many of the ports DA, DB, DC, in that order, a command reads (R77). -/
def portsRead : Instr → Nat
  | .ch _ _ _ | .maj _ _ _ => 3
  | .and _ _ | .or _ _ | .xor _ _ | .add _ _ => 2
  | .not _ | .shl _ _ | .shr _ _ | .rotl _ _ | .rotr _ _ => 1
  | .bsig0 _ | .bsig1 _ | .ssig0 _ | .ssig1 _ => 1
  | .loadw _ _ | .seth _ _ => 1
  | .nop | .init | .expand | .compress | .rdstat | .clrerr => 0
  | .readh _ | .readw _ | .readv _ | .readk _ => 0

/-- A command's mnemonic (R78). -/
def mnemonicOf : Instr → List Char
  | .nop => ['N', 'O', 'P']
  | .init => ['I', 'N', 'I', 'T']
  | .loadw _ _ => ['L', 'O', 'A', 'D', 'W']
  | .expand => ['E', 'X', 'P', 'A', 'N', 'D']
  | .compress => ['C', 'O', 'M', 'P', 'R', 'E', 'S', 'S']
  | .seth _ _ => ['S', 'E', 'T', 'H']
  | .readh _ => ['R', 'E', 'A', 'D', 'H']
  | .readw _ => ['R', 'E', 'A', 'D', 'W']
  | .readv _ => ['R', 'E', 'A', 'D', 'V']
  | .readk _ => ['R', 'E', 'A', 'D', 'K']
  | .rdstat => ['R', 'D', 'S', 'T', 'A', 'T']
  | .clrerr => ['C', 'L', 'R', 'E', 'R', 'R']
  | .and _ _ => ['A', 'N', 'D']
  | .or _ _ => ['O', 'R']
  | .xor _ _ => ['X', 'O', 'R']
  | .not _ => ['N', 'O', 'T']
  | .add _ _ => ['A', 'D', 'D']
  | .shl _ _ => ['S', 'H', 'L']
  | .shr _ _ => ['S', 'H', 'R']
  | .rotl _ _ => ['R', 'O', 'T', 'L']
  | .rotr _ _ => ['R', 'O', 'T', 'R']
  | .ch _ _ _ => ['C', 'H']
  | .maj _ _ _ => ['M', 'A', 'J']
  | .bsig0 _ => ['B', 'S', 'I', 'G', '0']
  | .bsig1 _ => ['B', 'S', 'I', 'G', '1']
  | .ssig0 _ => ['S', 'S', 'I', 'G', '0']
  | .ssig1 _ => ['S', 'S', 'I', 'G', '1']

/-- A command's literals, in the order of its assembler form (R87). -/
def literalsOf : Instr → List Nat
  | .nop | .init | .expand | .compress | .rdstat | .clrerr => []
  | .readh i | .readw i | .readv i | .readk i => [i.toNat]
  | .loadw i v | .seth i v => [i.toNat, v.toNat]
  | .and a b | .or a b | .xor a b | .add a b => [a.toNat, b.toNat]
  | .not a | .bsig0 a | .bsig1 a | .ssig0 a | .ssig1 a => [a.toNat]
  | .shl a n | .shr a n | .rotl a n | .rotr a n => [a.toNat, n.toNat]
  | .ch x y z | .maj x y z => [x.toNat, y.toNat, z.toNat]

/-- The field each of those literals must fit: 8 bits for IDX, 32 for DA, DB and DC (R87). -/
def literalBitsOf : Instr → List Nat
  | .nop | .init | .expand | .compress | .rdstat | .clrerr => []
  | .readh _ | .readw _ | .readv _ | .readk _ => [8]
  | .loadw _ _ | .seth _ _ => [8, 32]
  | .and _ _ | .or _ _ | .xor _ _ | .add _ _ => [32, 32]
  | .not _ | .bsig0 _ | .bsig1 _ | .ssig0 _ | .ssig1 _ => [32]
  | .shl _ _ | .shr _ _ | .rotl _ _ | .rotr _ _ => [32, 8]
  | .ch _ _ _ | .maj _ _ _ => [32, 32, 32]

/-- Every parameter but the width is in R6's range. -/
def Params.restInScope (p : Params) : Prop :=
  p.fixedValues = true ∧ p.latencies.legal = true ∧ 0 < p.nEngines

/-- The ALU and function commands (R115, R130). -/
def isStateless : Instr → Bool
  | .and _ _ | .or _ _ | .xor _ _ | .not _ | .add _ _ => true
  | .shl _ _ | .shr _ _ | .rotl _ _ | .rotr _ _ => true
  | .ch _ _ _ | .maj _ _ _ | .bsig0 _ | .bsig1 _ | .ssig0 _ | .ssig1 _ => true
  | .nop | .init | .loadw _ _ | .expand | .compress | .seth _ _ => false
  | .readh _ | .readw _ | .readv _ | .readk _ | .rdstat | .clrerr => false

/-- A round, with T1 and T2 written out (R160). -/
def isRound (k w : Word) (x y : Work) : Prop :=
  let t1 := x.h + bigSigma1 x.e + chFn x.e x.f x.g + k + w
  let t2 := bigSigma0 x.a + majFn x.a x.b x.c
  y.a = t1 + t2 ∧ y.b = x.a ∧ y.c = x.b ∧ y.d = x.c ∧ y.e = x.d + t1 ∧ y.f = x.e ∧
    y.g = x.f ∧ y.h = x.g

/-- The schedule `u` is the expansion of the block words of `w` (R150). -/
def isExpansion (w u : Vector Word 64) : Prop :=
  (∀ t : Fin 64, t.val < 16 → u[t.val] = w[t.val]) ∧
  ∀ (t : Nat) (_ : 16 ≤ t) (_ : t < 64),
    u[t] = smallSigma1 u[t - 2] + u[t - 7] + smallSigma0 u[t - 15] + u[t - 16]

/-- The schedule memory with a block's words in W[0..15] (R150). -/
def blockSchedule (b : BlockWords) : Vector Word 64 := Vector.ofFn fun t => b.getD t.val 0

/-- The pure hash of blocks: each block's expansion compressed into the words before it (R161,
R165, R217). -/
def hashWords (k : Vector Word 64) (iv : Vector Word 8) (blocks : List BlockWords) :
    Vector Word 8 :=
  blocks.foldl (fun h b => compressWords (expandWords (blockSchedule b)) h k) iv

/-- A shift or rotation command does what the generic operation does at width 32: the same value,
or InvalidShiftAmount on both sides (R106 to R109, R113). -/
def shiftAgrees (mk : Word → Idx → Instr) (f : FixedWord → Nat → Except HostStop FixedWord) : Prop :=
  ∀ (a : Word) (n : Idx) (s : State),
    (∃ r, exec (mk a n) s = .next (s.answered ⟨r, 0⟩) ∧
      f ⟨32, a.toNat⟩ n.toNat = .ok ⟨32, r.toNat⟩) ∨
    (exec (mk a n) s = .next (s.errored 3) ∧
      f ⟨32, a.toNat⟩ n.toNat = .error (.error .invalidShiftAmount))

/-- A two-operand command does what the generic operation does at width 32 (R101 to R105, R111). -/
def binaryAgrees (mk : Word → Word → Instr)
    (f : FixedWord → FixedWord → Except HostStop FixedWord) : Prop :=
  ∀ (a b : Word) (s : State),
    ∃ r, exec (mk a b) s = .next (s.answered ⟨r, 0⟩) ∧
      f ⟨32, a.toNat⟩ ⟨32, b.toNat⟩ = .ok ⟨32, r.toNat⟩

/-- The clock edges a command's walk takes after the edge that accepts it, when nothing stalls:
EXP(16..63), and for COMPRESS also RND(0..63) and FF (R164). -/
def walkEdges (c : Command) : Nat :=
  match decode c with
  | .ok .expand => 48
  | .ok .compress => 113
  | _ => 0

/-- The error codes the hardware can hold (R28, spec/93_implementation_defined.md I12). -/
def legalErrorCodes : List Code := [0, 3, 5, 6]

/-- ERRCODE holds a legal value (R28). -/
def State.errcodeLegal (s : State) : Prop := s.errcode ∈ legalErrorCodes

/-- Every response since reset carries a legal code, and a result of 0 if it is an error (R85). -/
def State.responsesLegal (s : State) : Prop :=
  ∀ r ∈ s.responses, r.code ∈ legalErrorCodes ∧ (r.code ≠ 0 → r.result = 0)

/-- Two banks agree: the same flags, and the same words under the flags that are true (R35). -/
def Bank.agree {n : Nat} (b c : Bank n) : Prop :=
  b.wr = c.wr ∧ ∀ i : Fin n, b.wr[i.val] = true → b.word[i.val] = c.word[i.val]

/-- Two states agree: they differ at most in words that no command has written (R35, R250). -/
def State.agree (s t : State) : Prop :=
  s.h.agree t.h ∧ s.v.agree t.v ∧ s.w.agree t.w ∧ s.errcode = t.errcode ∧ s.fsm = t.fsm ∧
    s.cfg = t.cfg ∧ s.input = t.input ∧ s.responses = t.responses ∧ s.trace = t.trace

/-- Two outcomes correspond: next states related, or the very same stop. -/
def outcomesRelated (r : State → State → Prop) :
    Host.Outcome State Fault Refusal → Host.Outcome State Fault Refusal → Prop
  | .next s, .next t => r s t
  | .fault f, .fault g => f = g
  | .refused f, .refused g => f = g
  | _, _ => False

/-- `s` with the trace port built in or left out, and what it has shown so far (R251). -/
def State.withTrace (s : State) (present : Bool) (records : List TraceRecord) : State :=
  { s with cfg := { s.cfg with trace := present }, trace := records }

/-- All of W[0..15] is written (R263 item 4). -/
def State.blockWritten (s : State) : Prop := ∀ i : Fin 64, i.val < 16 → s.w.wr[i.val] = true

/-- All of H[0..7] is written (R263 item 3). -/
def State.hashWritten (s : State) : Prop := ∀ i : Fin 8, s.h.wr[i.val] = true

/-- `cfg_std`: both tables are the defaults (R271). -/
def State.cfgStd (s : State) : Prop :=
  s.cfg.kTable = Config.stdK ∧ s.cfg.ivTable = Config.stdIV

/-- `fresh`: the state after reset, with the commands the host will issue (R270, R271). -/
def State.fresh (cfg : Config) (cmds : List Command) : State :=
  { State.resetWith cfg with input := cmds.map HostInput.command }

/-- A run: a reset, then the commands, each after the response before it; a run that faults has no
end state (R270). -/
def runCommands (cfg : Config) (cmds : List Command) : Host.Outcome State Fault Refusal :=
  Host.Core.run core cmds.length (State.fresh cfg cmds)

/-- `noFault`: no step of the run faults (R271). -/
def noFault (cfg : Config) (cmds : List Command) : Prop := ∃ s, runCommands cfg cmds = .next s

/-- `rcodeClean`: every response has RCODE 0 (R271). -/
def State.rcodeClean (s : State) : Prop := ∀ r ∈ s.responses, r.code = 0

end Sys2Proof.Machine
end

