-- ==== Sys2Proof/Certificates/Slice0/Obligations.lean ====
section
/-!
DEFINITION. The statements for the provers. A docstring names the rules of spec/ its statement
formalises; OBLIGATIONS.json lists them all.
-/

open Sys2Proof Sys2Proof.Machine

/-! ### The step, decoding and encoding -/

/-- R12, R72, R79: in IDLE, with a command next, a step is the meaning of the instruction that the
command decodes to, with the command taken off the channel. -/
def Obligations.StepRunsDecodedCommand : Prop :=
  ∀ (s : State) (c : Command) (rest : List HostInput) (i : Instr),
    s.fsm = .idle → s.input = .command c :: rest → decode c = .ok i →
      step s = exec i { s with input := rest }

/-- R249: with nothing to do the block holds its state. R72, R265: a command offered outside IDLE
is not accepted and stays offered. That a step with no event is a step, and that an offered command
stays at the head of `input`, is the model's choice (log entry 3). -/
def Obligations.BlockHoldsStateWithoutACommand : Prop :=
  (∀ s : State, s.input = [] → step s = .next s) ∧
  ∀ (s : State) (c : Command) (rest : List HostInput),
    s.input = .command c :: rest → s.fsm ≠ .idle → step s = .next s

/-- R79, R239 (R83, R236, R237): the five checks in their order, on the numbers of the word's
fields. The first that fails decides the error, whatever is written or not; when none fails, the
word decodes to a command with a legal IDX, which runs. -/
def Obligations.CommandWordChecksInOrder : Prop :=
  ∀ (s : State) (c : Command) (rest : List HostInput),
    s.fsm = .idle → s.input = .command c :: rest →
      match firstFailingCheck c.cmd with
      | some code => step s = .next ({ s with input := rest }.errored code)
      | none => ∃ i, decode c = .ok i ∧ i.wellFormed = true ∧ step s = exec i { s with input := rest }

/-- R80: every command word selects one command with a legal IDX or raises exactly one of
IllegalCommand (5), IndexOutOfRange (6) and InvalidShiftAmount (3); none is refused. -/
def Obligations.EveryWordSelectsOrRaises : Prop :=
  (∀ c : Command,
    (∃ i, classify c = .ok i ∧ i.wellFormed = true ∧ ∀ s, runCommand c s = exec i s) ∨
    (classify c = .error .illegalCommand ∧ ∀ s, runCommand c s = .next (s.errored 5)) ∨
    (classify c = .error .indexOutOfRange ∧ ∀ s, runCommand c s = .next (s.errored 6)) ∨
    (classify c = .error .invalidShiftAmount ∧ ∀ s, runCommand c s = .next (s.errored 3))) ∧
  ∀ (s : State) (r : Refusal), step s ≠ .refused r

/-- R73, R78, R87: decoding the encoding of any command, with every operand at every value its
field admits (an IDX out of range among them), gives that command back. -/
def Obligations.DecodeInvertsEncode : Prop :=
  ∀ i : Instr, decode (encode i) = .ok i

/-- R73, R78: a word that decodes is the encoder's word for what it decodes to: no two words stand
for one command. -/
def Obligations.EncodeRestoresTheWord : Prop :=
  ∀ (c : Command) (i : Instr), decode c = .ok i → (encode i).cmd = c.cmd

/-- R77: the operands of a command stand on its ports, and the ports it does not read are ignored
and not checked. -/
def Obligations.UnusedPortsAreIgnored : Prop :=
  ∀ (c : Command) (i : Instr), decode c = .ok i →
    (1 ≤ portsRead i → (encode i).da = c.da) ∧
    (2 ≤ portsRead i → (encode i).db = c.db) ∧
    (3 ≤ portsRead i → (encode i).dc = c.dc) ∧
    ∀ x y z : Word,
      decode ⟨c.cmd, if 1 ≤ portsRead i then c.da else x, if 2 ≤ portsRead i then c.db else y,
        if 3 ≤ portsRead i then c.dc else z⟩ = .ok i

/-- R89: the spec's encoding examples, word for word, both ways. -/
def Obligations.SpecEncodingExamples : Prop :=
  ∀ p ∈ ([(.nop, ⟨0x00000000, 0, 0, 0⟩),
      (.init, ⟨0x00000001, 0, 0, 0⟩),
      (.loadw 3 0x00000000, ⟨0x00000302, 0x00000000, 0, 0⟩),
      (.loadw 15 0x00000018, ⟨0x00000F02, 0x00000018, 0, 0⟩),
      (.compress, ⟨0x00000004, 0, 0, 0⟩),
      (.readh 7, ⟨0x00000706, 0, 0, 0⟩),
      (.readk 63, ⟨0x00003F09, 0, 0, 0⟩),
      (.add 0xffffffff 1, ⟨0x00000014, 0xFFFFFFFF, 0x00000001, 0⟩),
      (.shl 0x00000001 31, ⟨0x00001F15, 0x00000001, 0, 0⟩),
      (.rotr 0x12345678 8, ⟨0x00000818, 0x12345678, 0, 0⟩),
      (.ch 0xff00ff00 0x12345678 0x9abcdef0,
        ⟨0x00000020, 0xFF00FF00, 0x12345678, 0x9ABCDEF0⟩)] : List (Instr × Command)),
    encode p.1 = p.2 ∧ decode p.2 = .ok p.1

/-! ### ALU commands -/

/-- R101 to R104: the encodings of AND, OR, XOR and NOT, and that each completes on every operand
with the word whose bits the rule gives, changing nothing but the responses. -/
def Obligations.BitwiseCommandsActBitByBit : Prop :=
  encodesPlain 0x10 (fun a b _ => .and a b) ∧ encodesPlain 0x11 (fun a b _ => .or a b) ∧
  encodesPlain 0x12 (fun a b _ => .xor a b) ∧ encodesPlain 0x13 (fun a _ _ => .not a) ∧
  ∀ (a b : Word) (s : State),
    (∃ r, exec (.and a b) s = .next (s.answered ⟨r, 0⟩) ∧
      ∀ i < 32, r.getLsbD i = (a.getLsbD i && b.getLsbD i)) ∧
    (∃ r, exec (.or a b) s = .next (s.answered ⟨r, 0⟩) ∧
      ∀ i < 32, r.getLsbD i = (a.getLsbD i || b.getLsbD i)) ∧
    (∃ r, exec (.xor a b) s = .next (s.answered ⟨r, 0⟩) ∧
      ∀ i < 32, r.getLsbD i = (a.getLsbD i ^^ b.getLsbD i)) ∧
    (∃ r, exec (.not a) s = .next (s.answered ⟨r, 0⟩) ∧ r.toNat = 2 ^ 32 - 1 - a.toNat)

/-- R105: ADD's encoding, and that it completes on every pair of operands with the sum modulo 2^32,
with no flag and no error on wrap. -/
def Obligations.AddIsModularWithNoFlag : Prop :=
  encodesPlain 0x14 (fun a b _ => .add a b) ∧
  ∀ (a b : Word) (s : State),
    ∃ r, exec (.add a b) s = .next (s.answered ⟨r, 0⟩) ∧ r.toNat = (a.toNat + b.toNat) % 2 ^ 32

/-- R106, R107: the encodings of SHL and SHR, their values for n below 32, and InvalidShiftAmount
(code 3, RESULT 0) from 32 up. -/
def Obligations.ShiftsFillWithZeros : Prop :=
  encodesIndexed 0x15 (fun n a _ _ => .shl a n) ∧ encodesIndexed 0x16 (fun n a _ _ => .shr a n) ∧
  ∀ (a : Word) (n : Idx) (s : State),
    (n.toNat < 32 →
      (∃ r, exec (.shl a n) s = .next (s.answered ⟨r, 0⟩) ∧
        r.toNat = a.toNat * 2 ^ n.toNat % 2 ^ 32) ∧
      (∃ r, exec (.shr a n) s = .next (s.answered ⟨r, 0⟩) ∧ r.toNat = a.toNat / 2 ^ n.toNat)) ∧
    (32 ≤ n.toNat →
      exec (.shl a n) s = .next (s.errored 3) ∧ exec (.shr a n) s = .next (s.errored 3))

/-- R108, R109: the encodings of ROTL and ROTR, where each bit of the operand goes for n below 32,
and InvalidShiftAmount (code 3, RESULT 0) from 32 up. -/
def Obligations.RotationsMoveEveryBit : Prop :=
  encodesIndexed 0x17 (fun n a _ _ => .rotl a n) ∧ encodesIndexed 0x18 (fun n a _ _ => .rotr a n) ∧
  ∀ (a : Word) (n : Idx) (s : State),
    (n.toNat < 32 →
      (∃ r, exec (.rotl a n) s = .next (s.answered ⟨r, 0⟩) ∧
        ∀ i < 32, r.getLsbD ((i + n.toNat) % 32) = a.getLsbD i) ∧
      (∃ r, exec (.rotr a n) s = .next (s.answered ⟨r, 0⟩) ∧
        ∀ i < 32, r.getLsbD i = a.getLsbD ((i + n.toNat) % 32))) ∧
    (32 ≤ n.toNat →
      exec (.rotl a n) s = .next (s.errored 3) ∧ exec (.rotr a n) s = .next (s.errored 3))

/-- R115: an ALU or function command reads and writes no state. Its result is one word for all
states, and its only effects are the response and, on an error, ERRCODE. -/
def Obligations.StatelessCommandsDependOnOperandsAlone : Prop :=
  ∀ i : Instr, isStateless i = true →
    (i.wellFormed = true → ∃ r, ∀ s : State, exec i s = .next (s.answered ⟨r, 0⟩)) ∧
    (i.wellFormed = false → ∀ s : State, exec i s = .next (s.errored 3))

/-! ### Logical functions -/

/-- R131, R132: the encodings of CH and MAJ, and their results bit by bit. -/
def Obligations.ChooseAndMajorityBits : Prop :=
  encodesPlain 0x20 (fun x y z => .ch x y z) ∧ encodesPlain 0x21 (fun x y z => .maj x y z) ∧
  ∀ (x y z : Word) (s : State),
    (∃ r, exec (.ch x y z) s = .next (s.answered ⟨r, 0⟩) ∧
      ∀ i < 32, r.getLsbD i = if x.getLsbD i then y.getLsbD i else z.getLsbD i) ∧
    (∃ r, exec (.maj x y z) s = .next (s.answered ⟨r, 0⟩) ∧
      ∀ i < 32, r.getLsbD i =
        (x.getLsbD i && y.getLsbD i || x.getLsbD i && z.getLsbD i || y.getLsbD i && z.getLsbD i))

/-- R133, R134: the encodings of BSIG0 and BSIG1, and their results bit by bit, three rotations
each. -/
def Obligations.BigSigmaBits : Prop :=
  encodesPlain 0x22 (fun x _ _ => .bsig0 x) ∧ encodesPlain 0x23 (fun x _ _ => .bsig1 x) ∧
  ∀ (x : Word) (s : State),
    (∃ r, exec (.bsig0 x) s = .next (s.answered ⟨r, 0⟩) ∧
      ∀ i < 32, r.getLsbD i = (x.getLsbD ((i + 2) % 32) ^^ x.getLsbD ((i + 13) % 32) ^^
        x.getLsbD ((i + 22) % 32))) ∧
    (∃ r, exec (.bsig1 x) s = .next (s.answered ⟨r, 0⟩) ∧
      ∀ i < 32, r.getLsbD i = (x.getLsbD ((i + 6) % 32) ^^ x.getLsbD ((i + 11) % 32) ^^
        x.getLsbD ((i + 25) % 32)))

/-- R135, R136: the encodings of SSIG0 and SSIG1, and their results bit by bit: two rotations and
a shift, whose bits past 31 are 0. -/
def Obligations.SmallSigmaBits : Prop :=
  encodesPlain 0x24 (fun x _ _ => .ssig0 x) ∧ encodesPlain 0x25 (fun x _ _ => .ssig1 x) ∧
  ∀ (x : Word) (s : State),
    (∃ r, exec (.ssig0 x) s = .next (s.answered ⟨r, 0⟩) ∧
      ∀ i < 32, r.getLsbD i = (x.getLsbD ((i + 7) % 32) ^^ x.getLsbD ((i + 18) % 32) ^^
        (decide (i + 3 < 32) && x.getLsbD (i + 3)))) ∧
    (∃ r, exec (.ssig1 x) s = .next (s.answered ⟨r, 0⟩) ∧
      ∀ i < 32, r.getLsbD i = (x.getLsbD ((i + 17) % 32) ^^ x.getLsbD ((i + 19) % 32) ^^
        (decide (i + 10 < 32) && x.getLsbD (i + 10))))

/-! ### Schedule and compression -/

/-- R150, R151: with W[0..15] written EXPAND completes, W[0..15] stay, W[16..63] satisfy the
recurrence and are written, and nothing else changes; otherwise the model faults on the first of
W[0..15] that is not written. -/
def Obligations.ExpandFollowsTheRecurrence : Prop :=
  encodesPlain 0x03 (fun _ _ _ => .expand) ∧
  (∀ s : State, s.blockWritten →
    ∃ u : Bank 64, exec .expand s = .next ({ s with w := u }.answered ⟨0, 0⟩) ∧
      isExpansion s.w.word u.word ∧ ∀ t : Fin 64, u.wr[t.val] = true) ∧
  ∀ (s : State) (t : Fin 64), t.val < 16 → s.w.wr[t.val] = false →
    (∀ j : Fin 64, j.val < t.val → s.w.wr[j.val] = true) →
      exec .expand s = .fault (.unwritten (.w t))

/-- R160 to R163: with W[0..15] and H[0..7] written COMPRESS completes: the schedule is expanded,
64 rounds run from H, round t with K[t] and W[t], V holds what they leave, H is the feed-forward,
and nothing else changes but the trace port where it is present; otherwise the model faults on the
first unwritten of W[0..15], then of H[0..7]. -/
def Obligations.CompressRunsRoundsAndFeedsForward : Prop :=
  encodesPlain 0x04 (fun _ _ _ => .compress) ∧
  (∀ s : State, s.blockWritten → s.hashWritten →
    ∃ (u : Bank 64) (x : Nat → Work) (p q : Vector Word 8),
      exec .compress s = .next (State.answered { s with
        w := u
        v := ⟨p, Vector.replicate 8 true⟩
        h := ⟨q, Vector.replicate 8 true⟩
        trace := s.trace ++
          if s.cfg.trace then (List.finRange 64).map fun t => ⟨t, x (t.val + 1)⟩ else [] } ⟨0, 0⟩) ∧
      isExpansion s.w.word u.word ∧ (∀ t : Fin 64, u.wr[t.val] = true) ∧
      x 0 = ⟨s.h.word[0], s.h.word[1], s.h.word[2], s.h.word[3], s.h.word[4], s.h.word[5],
        s.h.word[6], s.h.word[7]⟩ ∧
      (∀ t : Fin 64, isRound s.cfg.kTable[t.val] u.word[t.val] (x t.val) (x (t.val + 1))) ∧
      p = #v[(x 64).a, (x 64).b, (x 64).c, (x 64).d, (x 64).e, (x 64).f, (x 64).g, (x 64).h] ∧
      ∀ i : Fin 8, q[i.val] = s.h.word[i.val] + p[i.val]) ∧
  (∀ (s : State) (t : Fin 64), t.val < 16 → s.w.wr[t.val] = false →
    (∀ j : Fin 64, j.val < t.val → s.w.wr[j.val] = true) →
      exec .compress s = .fault (.unwritten (.w t))) ∧
  ∀ (s : State) (i : Fin 8), s.blockWritten → s.h.wr[i.val] = false →
    (∀ j : Fin 8, j.val < i.val → s.h.wr[j.val] = true) →
      exec .compress s = .fault (.unwritten (.h i))

/-- R252: a COMPRESS with the trace port present emits 64 records in round order, the last of them
V after the command; nothing else emits any. -/
def Obligations.OnlyCompressEmitsTraceRecords : Prop :=
  ∀ (i : Instr) (s t : State), exec i s = .next t →
    if i = .compress ∧ s.cfg.trace = true then
      ∃ records, t.trace = s.trace ++ records ∧
        records.map TraceRecord.round = List.finRange 64 ∧
        records.getLast?.map TraceRecord.work = some (toWork t.v.word)
    else t.trace = s.trace

/-- R251, R252: the trace changes no step: a block with another trace port and another trace so
far takes the same step, with the same state and responses but for the trace itself. -/
def Obligations.TraceChangesNoStep : Prop :=
  ∀ (s : State) (present : Bool) (records : List TraceRecord),
    outcomesRelated (fun t u => ∃ more, u = t.withTrace present more)
      (step s) (step (s.withTrace present records))

/-! ### Control commands -/

/-- R181, R182, R190: the encodings of NOP, INIT and CLRERR. NOP changes nothing; INIT writes
IV_TABLE into H and nothing else, and does not clear ERRCODE; CLRERR clears ERRCODE and nothing
else. -/
def Obligations.NopInitClrerrEffects : Prop :=
  encodesPlain 0x00 (fun _ _ _ => .nop) ∧ encodesPlain 0x01 (fun _ _ _ => .init) ∧
  encodesPlain 0x0B (fun _ _ _ => .clrerr) ∧
  ∀ s : State,
    exec .nop s = .next (s.answered ⟨0, 0⟩) ∧
    (∃ u : Bank 8, exec .init s = .next ({ s with h := u }.answered ⟨0, 0⟩) ∧
      ∀ i : Fin 8, u.word[i.val] = s.cfg.ivTable[i.val] ∧ u.wr[i.val] = true) ∧
    exec .clrerr s = .next ({ s with errcode := 0 }.answered ⟨0, 0⟩)

/-- R183, R184: the encodings of LOADW and SETH. Below the bound each writes its one word and sets
that word's flag, and nothing else; at or past the bound it is IndexOutOfRange (code 6) and writes
nothing but ERRCODE. -/
def Obligations.LoadsWriteOneWord : Prop :=
  encodesIndexed 0x02 (fun i v _ _ => .loadw i v) ∧
  encodesIndexed 0x05 (fun i v _ _ => .seth i v) ∧
  ∀ (i : Idx) (v : Word) (s : State),
    (i.toNat < 16 → ∃ u : Bank 64, exec (.loadw i v) s = .next ({ s with w := u }.answered ⟨0, 0⟩) ∧
      ∀ j : Fin 64, u.word[j.val] = (if j.val = i.toNat then v else s.w.word[j.val]) ∧
        u.wr[j.val] = (if j.val = i.toNat then true else s.w.wr[j.val])) ∧
    (16 ≤ i.toNat → exec (.loadw i v) s = .next (s.errored 6)) ∧
    (i.toNat < 8 → ∃ u : Bank 8, exec (.seth i v) s = .next ({ s with h := u }.answered ⟨0, 0⟩) ∧
      ∀ j : Fin 8, u.word[j.val] = (if j.val = i.toNat then v else s.h.word[j.val]) ∧
        u.wr[j.val] = (if j.val = i.toNat then true else s.h.wr[j.val])) ∧
    (8 ≤ i.toNat → exec (.seth i v) s = .next (s.errored 6))

/-- R184: SETH of the eight IV_TABLE words leaves the H that INIT leaves. -/
def Obligations.SethEightTimesIsInit : Prop :=
  ∀ s t : State, s.fsm = .idle →
    s.input = (loadHashCommands s.cfg.ivTable.toList).map HostInput.command →
    exec .init s = .next t →
      ∃ u, Host.Core.run core 8 s = .next u ∧ u.h = t.h ∧ u.v = t.v ∧ u.w = t.w ∧
        u.errcode = t.errcode ∧ u.input = []

/-- R185, R186, R187: the encodings of READH, READW and READV. A written element in range is the
RESULT and nothing changes; an unwritten one faults, named; at or past the bound it is
IndexOutOfRange (code 6), and no fault. -/
def Obligations.ReadsAnswerTheElement : Prop :=
  encodesIndexed 0x06 (fun i _ _ _ => .readh i) ∧ encodesIndexed 0x07 (fun i _ _ _ => .readw i) ∧
  encodesIndexed 0x08 (fun i _ _ _ => .readv i) ∧
  ∀ (i : Idx) (s : State),
    (∀ h : i.toNat < 8,
      (s.h.wr[i.toNat] = true → exec (.readh i) s = .next (s.answered ⟨s.h.word[i.toNat], 0⟩)) ∧
      (s.h.wr[i.toNat] = false → exec (.readh i) s = .fault (.unwritten (.h ⟨i.toNat, h⟩))) ∧
      (s.v.wr[i.toNat] = true → exec (.readv i) s = .next (s.answered ⟨s.v.word[i.toNat], 0⟩)) ∧
      (s.v.wr[i.toNat] = false → exec (.readv i) s = .fault (.unwritten (.v ⟨i.toNat, h⟩)))) ∧
    (∀ h : i.toNat < 64,
      (s.w.wr[i.toNat] = true → exec (.readw i) s = .next (s.answered ⟨s.w.word[i.toNat], 0⟩)) ∧
      (s.w.wr[i.toNat] = false → exec (.readw i) s = .fault (.unwritten (.w ⟨i.toNat, h⟩)))) ∧
    (8 ≤ i.toNat → exec (.readh i) s = .next (s.errored 6)) ∧
    (8 ≤ i.toNat → exec (.readv i) s = .next (s.errored 6)) ∧
    (64 ≤ i.toNat → exec (.readw i) s = .next (s.errored 6))

/-- R29, R188, R189: the encodings of READK and RDSTAT. READK answers the round constant and never
faults; RDSTAT answers ERRCODE in bits 3:0, ERR in bit 4 and 0 above, and clears nothing. -/
def Obligations.ReadkAndRdstatAnswer : Prop :=
  encodesIndexed 0x09 (fun i _ _ _ => .readk i) ∧ encodesPlain 0x0A (fun _ _ _ => .rdstat) ∧
  ∀ (i : Idx) (s : State),
    (∀ _h : i.toNat < 64,
      exec (.readk i) s = .next (s.answered ⟨s.cfg.kTable[i.toNat], 0⟩)) ∧
    (64 ≤ i.toNat → exec (.readk i) s = .next (s.errored 6)) ∧
    ∃ r, exec .rdstat s = .next (s.answered ⟨r, 0⟩) ∧
      r.toNat = s.errcode.toNat + if s.errcode = 0 then 0 else 16

/-- R57: LOADW, SETH, INIT and EXPAND are idempotent, their error forms too: a second one leaves
the state of the first, but for its own response. -/
def Obligations.LoadsAndExpandAreIdempotent : Prop :=
  ∀ (i : Instr) (s t : State),
    i = .init ∨ i = .expand ∨ (∃ k v, i = .loadw k v) ∨ (∃ k v, i = .seth k v) →
    exec i s = .next t →
      ∃ u, exec i t = .next u ∧ { u with responses := t.responses } = t

/-- R57: no read has a side effect, and a read repeated gives the same response. -/
def Obligations.ReadsRepeat : Prop :=
  ∀ (i : Instr) (s t : State),
    i = .rdstat ∨ (∃ k, i = .readh k) ∨ (∃ k, i = .readw k) ∨ (∃ k, i = .readv k) ∨
      (∃ k, i = .readk k) →
    exec i s = .next t →
      ∃ r u, t.responses = s.responses ++ [r] ∧ exec i t = .next u ∧
        u.responses = t.responses ++ [r] ∧
        { t with responses := s.responses, errcode := s.errcode } = s ∧
        (r.code = 0 → t.errcode = s.errcode)

/-! ### Invariants and whole-machine rules -/

/-- R28, R85: every step keeps ERRCODE one of 0, 3, 5 and 6, and every response's code one of
these, with RESULT 0 under a code that is not 0. -/
def Obligations.StepKeepsCodesLegal : Prop :=
  ∀ s t : State, s.errcodeLegal ∧ s.responsesLegal → step s = .next t →
    t.errcodeLegal ∧ t.responsesLegal

/-- R28, R37: the codes are legal after reset. -/
def Obligations.ResetCodesAreLegal : Prop :=
  ∀ cfg : Config, (State.resetWith cfg).errcodeLegal ∧ (State.resetWith cfg).responsesLegal

/-- R25, R26, R32: no step writes the tables, and the block is in IDLE between commands. -/
def Obligations.StepKeepsTablesAndIdle : Prop :=
  ∀ s t : State, step s = .next t → t.cfg = s.cfg ∧ (s.fsm = .idle → t.fsm = .idle)

/-- R35: a written flag, once set, stays set until reset. -/
def Obligations.WrittenFlagsStaySet : Prop :=
  ∀ s t : State, (∀ rest, s.input ≠ .reset :: rest) → step s = .next t →
    ∀ x : Elem, s.isWritten x = true → t.isWritten x = true

/-- R61, R86, R237: a command that does not fault gets exactly one response, in order, and ERRCODE
keeps the first error: it takes the response's code only if it was 0. CLRERR sets it to 0. -/
def Obligations.OneResponseAndFirstErrorKept : Prop :=
  ∀ (s t : State) (c : Command) (rest : List HostInput),
    s.fsm = .idle → s.input = .command c :: rest → step s = .next t →
      t.input = rest ∧ ∃ r, t.responses = s.responses ++ [r] ∧
        t.errcode =
          if decode c = .ok .clrerr then 0 else if s.errcode = 0 then r.code else s.errcode

/-- R21, R22, R36: which commands can change H, V, W and ERRCODE at all. -/
def Obligations.OnlyNamedCommandsWriteState : Prop :=
  ∀ (i : Instr) (s t : State), exec i s = .next t →
    (t.h ≠ s.h → i = .init ∨ i = .compress ∨ ∃ k v, i = .seth k v) ∧
    (t.v ≠ s.v → i = .compress) ∧
    (t.w ≠ s.w → i = .expand ∨ i = .compress ∨ ∃ k v, i = .loadw k v) ∧
    (t.errcode ≠ s.errcode → i = .clrerr ∨ s.errcode = 0) ∧
    t.fsm = s.fsm ∧ t.cfg = s.cfg ∧ t.input = s.input

/-- R152: only LOADW of that index changes one of W[0..15]; neither EXPAND nor the expansion inside
COMPRESS does. -/
def Obligations.OnlyLoadwWritesBlockWords : Prop :=
  ∀ (i : Instr) (s t : State) (j : Fin 64), exec i s = .next t → j.val < 16 →
    (t.w.word[j.val] ≠ s.w.word[j.val] ∨ t.w.wr[j.val] ≠ s.w.wr[j.val]) →
      ∃ k v, i = .loadw k v ∧ k.toNat = j.val

/-- R35, R250: nothing can rest on a word that no command has written: states that differ only in
such words take the same step, to states that differ only in such words, or stop alike. The zeros
of log entry 2 are such words. -/
def Obligations.UnwrittenWordsNeverMatter : Prop :=
  ∀ s t : State, s.agree t → outcomesRelated State.agree (step s) (step t)

/-- R250: the one fault is Unwritten(x), and only EXPAND, COMPRESS, READH, READW and READV raise
it, on an element whose flag is false. -/
def Obligations.FaultsNameAnUnwrittenElement : Prop :=
  ∀ (s : State) (f : Fault), step s = .fault f →
    ∃ x, f = .unwritten x ∧ s.isWritten x = false ∧
      ∃ c rest i, s.input = .command c :: rest ∧ decode c = .ok i ∧
        (i = .expand ∨ i = .compress ∨ (∃ k, i = .readh k) ∨ (∃ k, i = .readw k) ∨
          ∃ k, i = .readv k)

/-! ### Reset -/

/-- R37: the values after reset. -/
def Obligations.ResetValues : Prop :=
  ∀ (cfg : Config) (x : Elem),
    (State.resetWith cfg).isWritten x = false ∧ (State.resetWith cfg).errcode = 0 ∧
    statusWord (State.resetWith cfg).errcode = 0 ∧ (State.resetWith cfg).fsm = .idle ∧
    (State.resetWith cfg).cfg = cfg ∧ (State.resetWith cfg).trace = []

/-- R260: a reset step, from any state, leaves the reset values, no response pending and the
configured tables; a run that faulted stays faulted. -/
def Obligations.ResetStepFromAnyState : Prop :=
  (∀ (s : State) (rest : List HostInput), s.input = .reset :: rest →
    ∃ t, step s = .next t ∧ (∀ x : Elem, t.isWritten x = false) ∧ t.errcode = 0 ∧
      t.fsm = .idle ∧ t.responses = [] ∧ t.trace = [] ∧ t.cfg = s.cfg ∧ t.input = rest) ∧
  ∀ (s : State) (f : Fault) (k : Nat), step s = .fault f → Host.Core.run core (k + 1) s = .fault f

/-! ### The signals -/

/-- R260, R261, R262: an edge with `rst` high drops the command in flight, any response and any
trace record, from any state, and leaves the block ready; while `rst` is high, `cmd_ready` and
`rsp_valid` are 0. -/
def Obligations.ResetEdgeAbandonsTheCommand : Prop :=
  (∀ (p : PortState) (i : PortIn), i.rst = true →
    ∃ q, p.edge i = .next q ∧ q.rsp = none ∧ (∀ x : Elem, q.arch.isWritten x = false) ∧
      q.arch.errcode = 0 ∧ q.arch.fsm = .idle ∧ q.arch.responses = [] ∧
      q.arch.trace = [] ∧ q.traceOut = none ∧
      q.arch.cfg = p.arch.cfg ∧ (q.out false).cmdReady = true) ∧
  ∀ p : PortState, (p.out true).cmdReady = false ∧ (p.out true).rspValid = false

/-- R72: the handshake. `cmd_ready` is 1 exactly in IDLE with no response waiting; while it is 0,
what the host drives on the command port changes nothing; a response stays, with its values and the
state it came with, until an edge with `rsp_ready`. -/
def Obligations.HandshakeHoldsTheResponse : Prop :=
  (∀ p : PortState, (p.out false).cmdReady = true ↔ p.arch.fsm = .idle ∧ p.rsp = none) ∧
  (∀ (p : PortState) (i : PortIn) (v : Bool) (c : Command), (p.out false).cmdReady = false →
    p.edge { i with cmdValid := v, cmd := c } = p.edge i) ∧
  ∀ (p : PortState) (i : PortIn) (r : Response), p.rsp = some r → i.rst = false →
    ∃ q, p.edge i = .next q ∧ q.arch = p.arch ∧
      if p.rspValid = true ∧ i.rspReady = true then q.rsp = none
      else q.rsp = some r ∧ (p.rspValid = true → q.rspValid = true)

/-- R251: the trace outputs exist exactly in a block built with `TRACE`, and whether they do changes
no other output. -/
def Obligations.TraceOutputsExistOnlyWithTrace : Prop :=
  ∀ (p : PortState) (rst present : Bool) (records : List TraceRecord),
    ((p.out rst).trace.isSome = true ↔ p.arch.cfg.trace = true) ∧
    { ({ p with arch := p.arch.withTrace present records }).out rst with
      trace := (p.out rst).trace } = p.out rst

/-- R164, R72, R56: the walk EXP, RND, FF over clock edges arrives where the one transaction-level
step arrives, with the same response waiting, and faults where it faults. That EXPAND walks EXP
alone and every other command answers on the edge that accepts it is the model's choice (log entry
12). -/
def Obligations.SignalWalkRefinesTheTransaction : Prop :=
  ∀ (p : PortState) (c : Command) (i : PortIn) (is : List PortIn),
    p.arch.fsm = .idle → p.rsp = none →
    i.rst = false → i.cmdValid = true → i.cmd = c →
    is.length = walkEdges c → (∀ j ∈ is, j.rst = false ∧ j.stall = false) →
      match runCommand c p.arch with
      | .next t => ∃ q, p.edges (i :: is) = .next q ∧ q.arch = t ∧
          q.rsp = t.responses.getLast? ∧ q.rsp ≠ none ∧ (i.stall = false → q.rspValid = true)
      | .fault f => p.edges (i :: is) = .fault f
      | .refused _ => False

/-! ### Words of any width, and the host around the block -/

/-- R101 to R109, R111, R113: the nine ALU commands are the generic word operations at width 32,
errors included. -/
def Obligations.AluRefinesFixedWidthWord : Prop :=
  binaryAgrees .and FixedWord.bitwiseAnd ∧ binaryAgrees .or FixedWord.bitwiseOr ∧
  binaryAgrees .xor FixedWord.bitwiseXor ∧ binaryAgrees .add FixedWord.addModular ∧
  (∀ (a : Word) (s : State), ∃ r, exec (.not a) s = .next (s.answered ⟨r, 0⟩) ∧
    FixedWord.bitwiseNot ⟨32, a.toNat⟩ = ⟨32, r.toNat⟩) ∧
  shiftAgrees .shl FixedWord.shiftLeft ∧ shiftAgrees .shr FixedWord.shiftRight ∧
  shiftAgrees .rotl FixedWord.rotateLeft ∧ shiftAgrees .rotr FixedWord.rotateRight

/-- R114: the four laws, at every width, and laws 2 to 4 of the commands. -/
def Obligations.FixedWidthWordLaws : Prop :=
  (∀ w v : Nat, 0 < w → w % 4 = 0 → v < 2 ^ w →
    ∃ a b, constructNat v w = .ok a ∧ construct a.toHex w .hex = .ok b ∧ b.toInt = v) ∧
  (∀ (a : FixedWord) (n : Nat), a.legal = true → n < a.width →
    ∃ b, a.rotateRight n = .ok b ∧ b.rotateLeft n = .ok a) ∧
  (∀ a b : FixedWord, a.width = b.width →
    a.addModular b = b.addModular a ∧
    ∃ c, a.addModular b = .ok c ∧ c.toInt = (a.toInt + b.toInt) % 2 ^ a.width) ∧
  (∀ (a : FixedWord) (n : Nat), a.width ≤ n →
    a.shiftLeft n = .error (.error .invalidShiftAmount) ∧
    a.shiftRight n = .error (.error .invalidShiftAmount) ∧
    a.rotateLeft n = .error (.error .invalidShiftAmount) ∧
    a.rotateRight n = .error (.error .invalidShiftAmount)) ∧
  ∀ (a b : Word) (n : Idx) (s : State),
    (n.toNat < 32 → ∃ r, exec (.rotr a n) s = .next (s.answered ⟨r, 0⟩) ∧
      exec (.rotl r n) s = .next (s.answered ⟨a, 0⟩)) ∧
    (exec (.add a b) s = exec (.add b a) s ∧
      ∃ r, exec (.add a b) s = .next (s.answered ⟨r, 0⟩) ∧ r.toNat = (a.toNat + b.toNat) % 2 ^ 32) ∧
    (32 ≤ n.toNat →
      exec (.shl a n) s = .next (s.errored 3) ∧ exec (.shr a n) s = .next (s.errored 3) ∧
      exec (.rotl a n) s = .next (s.errored 3) ∧ exec (.rotr a n) s = .next (s.errored 3))

/-- R111: operands of different widths are WidthMismatch for each of the four binary operations;
operands of one width give a word of that width. -/
def Obligations.WidthMismatchIsAnError : Prop :=
  ∀ f ∈ [FixedWord.bitwiseAnd, FixedWord.bitwiseOr, FixedWord.bitwiseXor, FixedWord.addModular],
  ∀ a b : FixedWord,
    (a.width ≠ b.width → f a b = .error (.error .widthMismatch)) ∧
    (a.width = b.width → ∃ c, f a b = .ok c ∧ c.width = a.width)

/-- R213, R214: below 2^64 bits, pad appends a 1, fewer than 512 zeros and the 64-bit big-endian
length, to the least multiple of 512 that holds them, the 1 and seven zeros making a byte 0x80
after whole bytes; from 2^64 bits up it is MessageTooLong. -/
def Obligations.PadReachesTheLeastMultiple : Prop :=
  ∀ bits : List Bool,
    (bits.length < 2 ^ 64 →
      ∃ k, k < 512 ∧ (bits.length + 1 + k) % 512 = 448 ∧ (bits.length % 8 = 0 → 7 ≤ k) ∧
        ∃ out, pad bits = .ok out ∧
          out = bits ++ [true] ++ List.replicate k false ++ bitsBE 64 bits.length ∧
          out.length % 512 = 0 ∧ bits.length + 65 ≤ out.length ∧
          out.length < bits.length + 65 + 512 ∧ natOfBits (out.drop (out.length - 64)) = bits.length) ∧
    (2 ^ 64 ≤ bits.length → pad bits = .error (.error .messageTooLong))

/-- R53, R211, R215: whole blocks of bytes parse into blocks of sixteen words, and the words of a
block are its bytes packed big-endian, four to a word, in order. -/
def Obligations.BlocksPackBytesBigEndian : Prop :=
  ∀ (n : Nat) (bytes : List Byte), bytes.length = 64 * n →
    (parseBlocks (encodeBits bytes)).length = n ∧
    (∀ ws ∈ parseBlocks (encodeBits bytes), ws.length = 16) ∧
    ∀ b < n, ∀ j < 16,
      (parseBlocks (encodeBits bytes))[b]?.bind (fun ws => ws[j]?) =
        some (packBytes (bytes.getD (64 * b + 4 * j) 0) (bytes.getD (64 * b + 4 * j + 1) 0)
          (bytes.getD (64 * b + 4 * j + 2) 0) (bytes.getD (64 * b + 4 * j + 3) 0))

/-- R217, R165: from any state in IDLE, INIT and then each block's LOADWs and COMPRESS run without
fault or error and leave in H the blocks' words compressed in order, each into the words before;
DIGEST then answers them, H[0] first. -/
def Obligations.HashSequenceChainsBlocks : Prop :=
  ∀ (blocks : List BlockWords) (s : State),
    (∀ b ∈ blocks, b.length = 16) → s.fsm = .idle →
      ∃ t rs u, drive (hashCommands blocks) s = .ok (t, rs) ∧
        t.h.word = hashWords s.cfg.kTable s.cfg.ivTable blocks ∧
        drive digestCommands t =
          .ok (u, (hashWords s.cfg.kTable s.cfg.ivTable blocks).toList)

/-- R218, R271: the whole pipeline on a message, from any state in IDLE: the digits of the pure
hash of the padded message's blocks, or MessageTooLong. -/
def Obligations.FullHashIsThePureHash : Prop :=
  ∀ (m : List Byte) (s : State), s.fsm = .idle →
    (8 * m.length < 2 ^ 64 →
      ∃ bits, pad (encodeBits m) = .ok bits ∧
        fullHash m s =
          .ok (digestHex (hashWords s.cfg.kTable s.cfg.ivTable (parseBlocks bits)).toList)) ∧
    (2 ^ 64 ≤ 8 * m.length → fullHash m s = .error (.error .messageTooLong))

/-- R216, R112: digestHex of eight words is 64 lower-case hex digits, and each word's eight digits,
in register order, read back as the word. -/
def Obligations.DigestHexReadsBack : Prop :=
  ∀ words : List Word, words.length = 8 →
    (digestHex words).length = 64 ∧
    (∀ c ∈ digestHex words, 48 ≤ c.toNat ∧ c.toNat ≤ 57 ∨ 97 ≤ c.toNat ∧ c.toNat ≤ 102) ∧
    ∀ i < 8, construct (((digestHex words).drop (8 * i)).take 8) 32 .hex =
      .ok ⟨32, (words.getD i 0).toNat⟩

/-- R231, R6: a block is built exactly when the width is 32, the other fixed parameters have R6's
values, no latency is 0 and there is at least one instance. With the rest in range, a width that
is not positive or not divisible by 4 is InvalidWidth, and another than 32 is outside the spec. That
the parameters besides the width are checked, in what order, and by what names they are refused, is
the model's choice (DESIGN CHOICE, log entry 14): so is the last clause, on no instance. -/
def Obligations.OnlyWidth32IsBuilt : Prop :=
  ∀ p : Params,
    (p.restInScope →
      (p.width ≤ 0 ∨ p.width % 4 ≠ 0 → p.build = .error .invalidWidth) ∧
      (0 < p.width → p.width % 4 = 0 → p.width ≠ 32 → p.build = .error .widthOutsideSpec) ∧
      (p.width = 32 →
        p.build = .ok ⟨p, List.replicate p.nEngines (.running (State.resetWith p.cfg))⟩)) ∧
    ((∃ e, p.build = .ok e) ↔ p.width = 32 ∧ p.restInScope) ∧
    (p.width = 32 → p.fixedValues = true → p.latencies.legal = true → p.nEngines = 0 →
      p.build = .error .noEngines)

/-- R66, R247, R12: instances share nothing that is written: a step of one depends on it alone and
leaves every other as it was, and an instance that has faulted stays so. That a fault of one stops
that one alone is the model's choice (DEDUCED, log entry 15). -/
def Obligations.EnginesAreIndependent : Prop :=
  (∀ (e : Engines) (i : Nat) (x : Engine), e.engine[i]? = some x →
    (e.stepAt i).engine[i]? = some x.step ∧
    (e.stepAt i).engine.length = e.engine.length ∧ (e.stepAt i).params = e.params ∧
    ∀ j ≠ i, (e.stepAt i).engine[j]? = e.engine[j]?) ∧
  (∀ s t : State, step s = .next t → (Engine.running s).step = .running t) ∧
  (∀ (s : State) (f : Fault), step s = .fault f → (Engine.running s).step = .faulted f) ∧
  ∀ f : Fault, (Engine.faulted f).step = .faulted f

/-- R87: each of the 27 commands, with literals that fit their fields, an IDX out of range among
them, assembles to the encoder's one command; and in each form a literal that does not fit its
field, IDX or word, is refused, whatever the others are. -/
def Obligations.AssemblerEmitsTheEncoding : Prop :=
  (∀ i : Instr, assembleNamed (mnemonicOf i) (literalsOf i) = .ok [encode i]) ∧
  ∀ (i : Instr) (ops : List Nat), ops.length = (literalBitsOf i).length →
    (∃ j < ops.length, 2 ^ (literalBitsOf i).getD j 0 ≤ ops.getD j 0) →
      assembleNamed (mnemonicOf i) ops = .error .literalTooWide

/-- R88: each pseudo-command expands to the commands shown, in order. R87: `.word` places a raw
command word with zero operand words, and refuses one of more than 32 bits. -/
def Obligations.PseudoCommandsExpandInOrder : Prop :=
  (∀ b : Vector Word 16,
    assembleNamed ['L', 'O', 'A', 'D', 'B', 'L', 'K'] (b.toList.map BitVec.toNat) =
      .ok ((List.finRange 16).map fun j => encode (.loadw (BitVec.ofNat 8 j.val) b[j.val])) ∧
    assembleNamed ['B', 'L', 'O', 'C', 'K'] (b.toList.map BitVec.toNat) =
      .ok (((List.finRange 16).map fun j => encode (.loadw (BitVec.ofNat 8 j.val) b[j.val])) ++
        [encode .compress])) ∧
  (∀ h : Vector Word 8,
    assembleNamed ['L', 'O', 'A', 'D', 'H'] (h.toList.map BitVec.toNat) =
      .ok ((List.finRange 8).map fun j => encode (.seth (BitVec.ofNat 8 j.val) h[j.val]))) ∧
  assembleNamed ['D', 'I', 'G', 'E', 'S', 'T'] [] =
    .ok ((List.finRange 8).map fun j => encode (.readh (BitVec.ofNat 8 j.val))) ∧
  (∀ (x : Word) (n : Idx),
    assembleNamed ['R', 'O', 'T'] [x.toNat, n.toNat] = .ok [encode (.rotr x n)] ∧
    assembleNamed ['S', 'H', 'R', '3'] [x.toNat] = .ok [encode (.shr x 3)] ∧
    assembleNamed ['.', 'w', 'o', 'r', 'd'] [x.toNat] = .ok [⟨x, 0, 0, 0⟩]) ∧
  ∀ w : Nat, 2 ^ 32 ≤ w → assembleNamed ['.', 'w', 'o', 'r', 'd'] [w] = .error .literalTooWide
end

