-- ==== Sys2Proof/Laws/Decode.lean ====
section
/-!
SUPPORT. The fields of a command word as numbers, the encoder's fields, and what the decoder
answers (spec/30_encoding.md R73 to R79).
-/

namespace Sys2Proof

/-- OPC as a number. -/
theorem Command.opc_toNat (c : Command) : c.opc.toNat = c.cmd.toNat % 256 := by
  simp [Command.opc]

/-- IDX as a number. -/
theorem Command.idx_toNat (c : Command) : c.idx.toNat = c.cmd.toNat / 256 % 256 := by
  simp [Command.idx, Nat.shiftRight_eq_div_pow]

/-- RSV as a number: the word has no bits above it. -/
theorem Command.rsv_toNat (c : Command) : c.rsv.toNat = c.cmd.toNat / 65536 := by
  have h : c.cmd.toNat < 2 ^ 32 := c.cmd.isLt
  simp [Command.rsv, Nat.shiftRight_eq_div_pow]
  omega

/-- A command word is determined by its three fields. -/
theorem Command.cmd_toNat (c : Command) :
    c.cmd.toNat = c.rsv.toNat * 65536 + c.idx.toNat * 256 + c.opc.toNat := by
  rw [c.opc_toNat, c.idx_toNat, c.rsv_toNat]
  omega

/-- The number of an encoded command word. -/
theorem commandWord_toNat (opc : Byte) (idx : Idx) :
    (commandWord opc idx).toNat = idx.toNat * 256 + opc.toNat := by
  have h1 : opc.toNat < 256 := opc.isLt
  have h2 : idx.toNat < 256 := idx.isLt
  simp only [commandWord, BitVec.toNat_append, BitVec.toNat_ofNat]
  rw [← Nat.shiftLeft_add_eq_or_of_lt (by simpa using h1),
    ← Nat.shiftLeft_add_eq_or_of_lt (by simpa using h2)]
  simp [Nat.shiftLeft_eq]

/-- A command whose word is an encoded one has RSV 0. -/
theorem commandWord_rsv (opc : Byte) (idx : Idx) (x y z : Word) :
    Command.rsv ⟨commandWord opc idx, x, y, z⟩ = 0 := by
  apply BitVec.eq_of_toNat_eq
  rw [Command.rsv_toNat, commandWord_toNat]
  have h1 := opc.isLt
  have h2 := idx.isLt
  simp
  omega

/-- A command whose word is an encoded one has its IDX. -/
theorem commandWord_idx (opc : Byte) (idx : Idx) (x y z : Word) :
    Command.idx ⟨commandWord opc idx, x, y, z⟩ = idx := by
  apply BitVec.eq_of_toNat_eq
  rw [Command.idx_toNat, commandWord_toNat]
  have h1 := opc.isLt
  have h2 := idx.isLt
  omega

/-- A command whose word is an encoded one has its OPC. -/
theorem commandWord_opc (opc : Byte) (idx : Idx) (x y z : Word) :
    Command.opc ⟨commandWord opc idx, x, y, z⟩ = opc := by
  apply BitVec.eq_of_toNat_eq
  rw [Command.opc_toNat, commandWord_toNat]
  have h1 := opc.isLt
  omega

/-- What the plain form answers: the command, when IDX is 0. -/
theorem plainCommand_eq_ok {c : Command} {i j : Instr} :
    plainCommand c i = .ok j ↔ c.idx = 0 ∧ i = j := by
  unfold plainCommand; split <;> simp_all

/-- What the decoder answers with a command: RSV is 0 and the map has the opcode. -/
theorem decode_eq_ok {c : Command} {i : Instr} :
    decode c = .ok i ↔ c.rsv = 0 ∧ decodeOpcode c = .ok i := by
  unfold decode; split <;> simp_all

/-- The decoder's answer carries the opcode of the word. -/
theorem decodeOpcode_opcode {c : Command} {i : Instr} (h : decodeOpcode c = .ok i) :
    i.opcode = c.opc := by
  unfold decodeOpcode at h
  split at h <;>
    first
    | (obtain ⟨-, rfl⟩ := plainCommand_eq_ok.1 h; simp_all [Instr.opcode])
    | (cases h <;> simp_all [Instr.opcode])

end Sys2Proof
end

