-- ==== Sys2Proof/Laws/State.lean ====
section
/-!
SUPPORT. The small lemmas of the state's updates: one per field per update, for the simp set.
-/

namespace Sys2Proof.Machine

open Sys2Proof

theorem recordError_eq (s : State) (c : Code) :
    s.recordError c = { s with errcode := if c ≠ 0 ∧ s.errcode = 0 then c else s.errcode } := by
  unfold State.recordError; split <;> rfl

/-! ### Recording an error -/

@[simp] theorem recordError_h (s : State) (c : Code) :
    (s.recordError c).h = s.h := by rw [recordError_eq]

@[simp] theorem recordError_v (s : State) (c : Code) :
    (s.recordError c).v = s.v := by rw [recordError_eq]

@[simp] theorem recordError_w (s : State) (c : Code) :
    (s.recordError c).w = s.w := by rw [recordError_eq]

@[simp] theorem recordError_errcode (s : State) (c : Code) :
    (s.recordError c).errcode = if c ≠ 0 ∧ s.errcode = 0 then c else s.errcode := by rw [recordError_eq]

@[simp] theorem recordError_fsm (s : State) (c : Code) :
    (s.recordError c).fsm = s.fsm := by rw [recordError_eq]

@[simp] theorem recordError_cfg (s : State) (c : Code) :
    (s.recordError c).cfg = s.cfg := by rw [recordError_eq]

@[simp] theorem recordError_input (s : State) (c : Code) :
    (s.recordError c).input = s.input := by rw [recordError_eq]

@[simp] theorem recordError_responses (s : State) (c : Code) :
    (s.recordError c).responses = s.responses := by rw [recordError_eq]

@[simp] theorem recordError_trace (s : State) (c : Code) :
    (s.recordError c).trace = s.trace := by rw [recordError_eq]

/-! ### Responding -/

@[simp] theorem respond_h (s : State) (r : Word) (c : Code) :
    (s.respond r c).h = s.h := by simp [State.respond]

@[simp] theorem respond_v (s : State) (r : Word) (c : Code) :
    (s.respond r c).v = s.v := by simp [State.respond]

@[simp] theorem respond_w (s : State) (r : Word) (c : Code) :
    (s.respond r c).w = s.w := by simp [State.respond]

@[simp] theorem respond_errcode (s : State) (r : Word) (c : Code) :
    (s.respond r c).errcode = if c ≠ 0 ∧ s.errcode = 0 then c else s.errcode := by simp [State.respond]

@[simp] theorem respond_fsm (s : State) (r : Word) (c : Code) :
    (s.respond r c).fsm = s.fsm := by simp [State.respond]

@[simp] theorem respond_cfg (s : State) (r : Word) (c : Code) :
    (s.respond r c).cfg = s.cfg := by simp [State.respond]

@[simp] theorem respond_input (s : State) (r : Word) (c : Code) :
    (s.respond r c).input = s.input := by simp [State.respond]

@[simp] theorem respond_responses (s : State) (r : Word) (c : Code) :
    (s.respond r c).responses = s.responses ++ [⟨r, c⟩] := by simp [State.respond]

@[simp] theorem respond_trace (s : State) (r : Word) (c : Code) :
    (s.respond r c).trace = s.trace := by simp [State.respond]

/-! ### Clearing the error -/

@[simp] theorem clearError_h (s : State) :
    (s.clearError).h = s.h := rfl

@[simp] theorem clearError_v (s : State) :
    (s.clearError).v = s.v := rfl

@[simp] theorem clearError_w (s : State) :
    (s.clearError).w = s.w := rfl

@[simp] theorem clearError_errcode (s : State) :
    (s.clearError).errcode = 0 := rfl

@[simp] theorem clearError_fsm (s : State) :
    (s.clearError).fsm = s.fsm := rfl

@[simp] theorem clearError_cfg (s : State) :
    (s.clearError).cfg = s.cfg := rfl

@[simp] theorem clearError_input (s : State) :
    (s.clearError).input = s.input := rfl

@[simp] theorem clearError_responses (s : State) :
    (s.clearError).responses = s.responses := rfl

@[simp] theorem clearError_trace (s : State) :
    (s.clearError).trace = s.trace := rfl

/-! ### Reset -/

@[simp] theorem applyReset_h (s : State) :
    (s.applyReset).h = Bank.blank 8 := rfl

@[simp] theorem applyReset_v (s : State) :
    (s.applyReset).v = Bank.blank 8 := rfl

@[simp] theorem applyReset_w (s : State) :
    (s.applyReset).w = Bank.blank 64 := rfl

@[simp] theorem applyReset_errcode (s : State) :
    (s.applyReset).errcode = 0 := rfl

@[simp] theorem applyReset_fsm (s : State) :
    (s.applyReset).fsm = .idle := rfl

@[simp] theorem applyReset_cfg (s : State) :
    (s.applyReset).cfg = s.cfg := rfl

@[simp] theorem applyReset_input (s : State) :
    (s.applyReset).input = s.input := rfl

@[simp] theorem applyReset_responses (s : State) :
    (s.applyReset).responses = [] := rfl

@[simp] theorem applyReset_trace (s : State) :
    (s.applyReset).trace = [] := rfl

/-! ### Answering -/

@[simp] theorem answered_h (s : State) (r : Response) :
    (s.answered r).h = s.h := rfl

@[simp] theorem answered_v (s : State) (r : Response) :
    (s.answered r).v = s.v := rfl

@[simp] theorem answered_w (s : State) (r : Response) :
    (s.answered r).w = s.w := rfl

@[simp] theorem answered_errcode (s : State) (r : Response) :
    (s.answered r).errcode = s.errcode := rfl

@[simp] theorem answered_fsm (s : State) (r : Response) :
    (s.answered r).fsm = s.fsm := rfl

@[simp] theorem answered_cfg (s : State) (r : Response) :
    (s.answered r).cfg = s.cfg := rfl

@[simp] theorem answered_input (s : State) (r : Response) :
    (s.answered r).input = s.input := rfl

@[simp] theorem answered_responses (s : State) (r : Response) :
    (s.answered r).responses = s.responses ++ [r] := rfl

@[simp] theorem answered_trace (s : State) (r : Response) :
    (s.answered r).trace = s.trace := rfl

/-! ### Erring -/

@[simp] theorem errored_h (s : State) (c : Code) :
    (s.errored c).h = s.h := rfl

@[simp] theorem errored_v (s : State) (c : Code) :
    (s.errored c).v = s.v := rfl

@[simp] theorem errored_w (s : State) (c : Code) :
    (s.errored c).w = s.w := rfl

@[simp] theorem errored_errcode (s : State) (c : Code) :
    (s.errored c).errcode = if s.errcode = 0 then c else s.errcode := rfl

@[simp] theorem errored_fsm (s : State) (c : Code) :
    (s.errored c).fsm = s.fsm := rfl

@[simp] theorem errored_cfg (s : State) (c : Code) :
    (s.errored c).cfg = s.cfg := rfl

@[simp] theorem errored_input (s : State) (c : Code) :
    (s.errored c).input = s.input := rfl

@[simp] theorem errored_responses (s : State) (c : Code) :
    (s.errored c).responses = s.responses ++ [⟨0, c⟩] := rfl

@[simp] theorem errored_trace (s : State) (c : Code) :
    (s.errored c).trace = s.trace := rfl

/-! ### Offering a command -/

@[simp] theorem offer_h (s : State) (c : Command) :
    (s.offer c).h = s.h := rfl

@[simp] theorem offer_v (s : State) (c : Command) :
    (s.offer c).v = s.v := rfl

@[simp] theorem offer_w (s : State) (c : Command) :
    (s.offer c).w = s.w := rfl

@[simp] theorem offer_errcode (s : State) (c : Command) :
    (s.offer c).errcode = s.errcode := rfl

@[simp] theorem offer_fsm (s : State) (c : Command) :
    (s.offer c).fsm = .idle := rfl

@[simp] theorem offer_cfg (s : State) (c : Command) :
    (s.offer c).cfg = s.cfg := rfl

@[simp] theorem offer_input (s : State) (c : Command) :
    (s.offer c).input = .command c :: s.input := rfl

@[simp] theorem offer_responses (s : State) (c : Command) :
    (s.offer c).responses = s.responses := rfl

@[simp] theorem offer_trace (s : State) (c : Command) :
    (s.offer c).trace = s.trace := rfl

/-! ### Compressing -/

@[simp] theorem compressed_h (s : State) :
    (s.compressed).h = writeAll (compressWords s.w.expand.word s.h.word s.cfg.kTable) := rfl

@[simp] theorem compressed_v (s : State) :
    (s.compressed).v = writeAll (ofWork (runRounds s.cfg.kTable s.w.expand.word (toWork s.h.word))) := rfl

@[simp] theorem compressed_w (s : State) :
    (s.compressed).w = s.w.expand := rfl

@[simp] theorem compressed_errcode (s : State) :
    (s.compressed).errcode = s.errcode := rfl

@[simp] theorem compressed_fsm (s : State) :
    (s.compressed).fsm = s.fsm := rfl

@[simp] theorem compressed_cfg (s : State) :
    (s.compressed).cfg = s.cfg := rfl

@[simp] theorem compressed_input (s : State) :
    (s.compressed).input = s.input := rfl

@[simp] theorem compressed_responses (s : State) :
    (s.compressed).responses = s.responses := rfl

@[simp] theorem compressed_trace (s : State) :
    (s.compressed).trace = s.trace ++ compressRecords s.cfg s.w.expand.word (toWork s.h.word) := rfl

/-! ### Whole-state forms -/

/-- A response with code 0 changes nothing but the responses. -/
theorem respond_zero (s : State) (r : Word) : s.respond r 0 = s.answered ⟨r, 0⟩ := by
  simp [State.respond, State.recordError, State.answered]

/-- Raising an error, by its number. -/
theorem raise_eq (s : State) (e : ErrorCode) (h : errorNumber e ≠ 0) :
    s.raise e = s.errored (errorNumber e) := by
  have h' : ¬ errorNumber e = 0#4 := h
  simp [State.raise, State.respond, State.errored, recordError_eq, h']

@[simp] theorem raise_indexOutOfRange (s : State) : s.raise .indexOutOfRange = s.errored 6 :=
  raise_eq s _ (by decide)

@[simp] theorem raise_invalidShiftAmount (s : State) :
    s.raise .invalidShiftAmount = s.errored 3 :=
  raise_eq s _ (by decide)

@[simp] theorem raise_illegalCommand (s : State) : s.raise .illegalCommand = s.errored 5 :=
  raise_eq s _ (by decide)

/-- Every decode error is IllegalCommand. -/
@[simp] theorem decodeError_code (e : DecodeError) : e.code = .illegalCommand := by
  cases e <;> rfl

end Sys2Proof.Machine
end

