-- ==== Sys2Proof/Laws/Ops.lean ====
section
/-!
SUPPORT. One lemma for each shared operation, saying all it can do: the banks, reading, the operand
forms, running a command, one step.
-/

namespace Sys2Proof.Machine

open Sys2Proof

/-! ### Banks (R35) -/

@[simp] theorem blank_wr {n : Nat} (i : Nat) (h : i < n) : (Bank.blank n).wr[i] = false := by
  simp [Bank.blank]

@[simp] theorem writeAll_word (x : Vector Word 8) : (writeAll x).word = x := rfl

@[simp] theorem writeAll_wr (x : Vector Word 8) (i : Nat) (h : i < 8) :
    (writeAll x).wr[i] = true := by
  simp [writeAll]

/-- A read of a bank after a write: the word written at its index, the old word elsewhere. -/
theorem write_word {n : Nat} (b : Bank n) (i : Fin n) (x : Word) (j : Nat) (h : j < n) :
    (b.write i x).word[j] = if i.val = j then x else b.word[j] := by
  simp [Bank.write, Vector.getElem_set]

/-- A flag of a bank after a write: set at its index, the old flag elsewhere. -/
theorem write_wr {n : Nat} (b : Bank n) (i : Fin n) (x : Word) (j : Nat) (h : j < n) :
    (b.write i x).wr[j] = if i.val = j then true else b.wr[j] := by
  simp [Bank.write, Vector.getElem_set]

/-! ### Reading (R35, R250) -/

/-- A read answers the word of a written element, or faults naming the unwritten one. -/
theorem read_eq (s : State) (x : Elem) :
    s.read x = if s.isWritten x then .ok (s.wordAt x) else .error (.unwritten x) := rfl

/-- Nothing is unwritten exactly when every element of the list is written. -/
theorem firstUnwritten_eq_none {s : State} {xs : List Elem} :
    s.firstUnwritten xs = none ↔ ∀ x ∈ xs, s.isWritten x = true := by
  induction xs with
  | nil => simp [State.firstUnwritten]
  | cons x xs ih => by_cases h : s.isWritten x <;> simp [State.firstUnwritten, h, ih]

/-- The element answered is unwritten, and every one before it in the list is written. -/
theorem firstUnwritten_eq_some {s : State} {xs : List Elem} {x : Elem} :
    s.firstUnwritten xs = some x ↔
      ∃ as bs, xs = as ++ x :: bs ∧ (∀ y ∈ as, s.isWritten y = true) ∧ s.isWritten x = false := by
  induction xs with
  | nil => simp [State.firstUnwritten]
  | cons y ys ih =>
    by_cases h : s.isWritten y
    · simp only [State.firstUnwritten, h, if_true, ih]
      constructor
      · rintro ⟨as, bs, rfl, ha, hx⟩
        exact ⟨y :: as, bs, rfl, by simpa [h] using ha, hx⟩
      · rintro ⟨as, bs, e, ha, hx⟩
        cases as with
        | nil => simp_all
        | cons a as =>
          obtain ⟨rfl, rfl⟩ := List.cons.inj e
          exact ⟨as, bs, rfl, fun z hz => ha z (by simp [hz]), hx⟩
    · simp only [State.firstUnwritten, h, Bool.false_eq_true, if_false, Option.some.injEq]
      constructor
      · rintro rfl
        exact ⟨[], ys, rfl, by simp, by simpa using h⟩
      · rintro ⟨as, bs, e, ha, hx⟩
        cases as with
        | nil => exact (List.cons.inj e).1
        | cons a as => exact absurd (ha y (by simp [(List.cons.inj e).1])) h

/-- The elements EXPAND checks are W[0..15]. -/
theorem mem_blockElems {x : Elem} : x ∈ blockElems ↔ ∃ i : Fin 64, i.val < 16 ∧ x = .w i := by
  constructor
  · intro h
    obtain ⟨i, hi, rfl⟩ := List.mem_map.1 h
    refine ⟨i, ?_, rfl⟩
    revert hi; revert i; decide
  · rintro ⟨i, hi, rfl⟩
    refine List.mem_map.2 ⟨i, ?_, rfl⟩
    revert hi; revert i; decide

/-- The elements COMPRESS checks after them are H[0..7]. -/
theorem mem_hashElems {x : Elem} : x ∈ hashElems ↔ ∃ i : Fin 8, x = .h i := by
  simp [hashElems, eq_comm]

/-- W[0..15] is written exactly when EXPAND's check finds nothing. -/
theorem blockWritten_iff {s : State} :
    s.blockWritten ↔ s.firstUnwritten blockElems = none := by
  rw [firstUnwritten_eq_none]
  constructor
  · intro h x hx
    obtain ⟨i, hi, rfl⟩ := mem_blockElems.1 hx
    exact h i hi
  · intro h i hi
    exact h (.w i) (mem_blockElems.2 ⟨i, hi, rfl⟩)

/-- H[0..7] is written exactly when COMPRESS's second check finds nothing. -/
theorem hashWritten_iff {s : State} : s.hashWritten ↔ s.firstUnwritten hashElems = none := by
  rw [firstUnwritten_eq_none]
  constructor
  · intro h x hx
    obtain ⟨i, rfl⟩ := mem_hashElems.1 hx
    exact h i
  · intro h i
    exact h (.h i) (mem_hashElems.2 ⟨i, rfl⟩)

/-! ### Operand forms (R75, R79) -/

/-- An index below its bound goes on with it. -/
theorem withIndex_lt {bound : Nat} {i : Idx} {s : State}
    {k : Fin bound → Host.Outcome State Fault Refusal} (h : i.toNat < bound) :
    withIndex bound i s k = k ⟨i.toNat, h⟩ := dif_pos h

/-- An index at or past its bound is IndexOutOfRange, code 6. -/
theorem withIndex_ge {bound : Nat} {i : Idx} {s : State}
    {k : Fin bound → Host.Outcome State Fault Refusal} (h : bound ≤ i.toNat) :
    withIndex bound i s k = .next (s.errored 6) := by
  rw [withIndex, dif_neg (by omega), raise_indexOutOfRange]

/-- A shift amount below 32 goes on with it. -/
theorem withShift_lt {n : Idx} {s : State} {k : Nat → Host.Outcome State Fault Refusal}
    (h : n.toNat < 32) : withShift n s k = k n.toNat := if_pos h

/-- A shift amount from 32 up is InvalidShiftAmount, code 3. -/
theorem withShift_ge {n : Idx} {s : State} {k : Nat → Host.Outcome State Fault Refusal}
    (h : 32 ≤ n.toNat) : withShift n s k = .next (s.errored 3) := by
  rw [withShift, if_neg (by omega), raise_invalidShiftAmount]

/-- Reading an element out answers its word, or faults on it. -/
theorem answerElem_eq (x : Elem) (s : State) :
    answerElem x s =
      if s.isWritten x then .next (s.answered ⟨s.wordAt x, 0⟩) else .fault (.unwritten x) := by
  unfold answerElem
  rw [read_eq]
  by_cases h : s.isWritten x <;> simp only [h, if_true, if_false, Bool.false_eq_true]
  rw [respond_zero]

/-- The written check passes, or faults on the first unwritten element. -/
theorem withWritten_eq (xs : List Elem) (s : State) (k : Host.Outcome State Fault Refusal) :
    withWritten xs s k =
      match s.firstUnwritten xs with
      | some x => .fault (.unwritten x)
      | none => k := rfl

/-! ### Running a command (R72, R79) -/

/-- A command the decoder accepts runs its meaning. -/
theorem runCommand_ok {c : Command} {i : Instr} (s : State) (h : decode c = .ok i) :
    runCommand c s = exec i s := by simp [runCommand, h]

/-- A command the decoder rejects is IllegalCommand, code 5. -/
theorem runCommand_error {c : Command} {e : DecodeError} (s : State) (h : decode c = .error e) :
    runCommand c s = .next (s.errored 5) := by simp [runCommand, h]

/-- All that one step can do. -/
theorem step_eq (s : State) :
    step s = match s.input with
      | [] => .next s
      | .reset :: rest => .next { s with input := rest }.applyReset
      | .command c :: rest =>
        if s.fsm = .idle then runCommand c { s with input := rest } else .next s := rfl

/-- A next state comes from no event, a reset, a command not accepted, or a command run. -/
theorem step_cases {s t : State} (h : step s = .next t) :
    (s.input = [] ∧ t = s) ∨
    (∃ rest, s.input = .reset :: rest ∧ t = { s with input := rest }.applyReset) ∨
    (∃ c rest, s.input = .command c :: rest ∧ s.fsm ≠ .idle ∧ t = s) ∨
    (∃ c rest, s.input = .command c :: rest ∧ s.fsm = .idle ∧
      runCommand c { s with input := rest } = .next t) := by
  rw [step_eq] at h
  split at h
  · rename_i hi
    exact .inl ⟨hi, by cases h; rfl⟩
  · rename_i rest hi
    exact .inr (.inl ⟨rest, hi, by cases h; rfl⟩)
  · rename_i c rest hi
    split at h
    · rename_i hf
      exact .inr (.inr (.inr ⟨c, rest, hi, hf, h⟩))
    · rename_i hf
      exact .inr (.inr (.inl ⟨c, rest, hi, hf, by cases h; rfl⟩))

/-- A fault comes only from a command run in IDLE. -/
theorem step_fault {s : State} {f : Fault} (h : step s = .fault f) :
    ∃ c rest, s.input = .command c :: rest ∧ s.fsm = .idle ∧
      runCommand c { s with input := rest } = .fault f := by
  rw [step_eq] at h
  split at h
  · cases h
  · cases h
  · rename_i c rest hi
    split at h
    · rename_i hf
      exact ⟨c, rest, hi, hf, h⟩
    · cases h

end Sys2Proof.Machine
end

