-- ==== Sys2Proof/Laws/Exec.lean ====
section
/-!
SUPPORT. Everything a command can do, said once: the next states of exec, and its faults.
-/

namespace Sys2Proof.Machine

open Sys2Proof

/-- The commands that only answer: they write no state (R36). -/
def onlyAnswers : Instr → Bool
  | .init | .loadw _ _ | .expand | .compress | .seth _ _ | .clrerr => false
  | .nop | .readh _ | .readw _ | .readv _ | .readk _ | .rdstat => true
  | .and _ _ | .or _ _ | .xor _ _ | .not _ | .add _ _ => true
  | .shl _ _ | .shr _ _ | .rotl _ _ | .rotr _ _ => true
  | .ch _ _ _ | .maj _ _ _ | .bsig0 _ | .bsig1 _ | .ssig0 _ | .ssig1 _ => true

/-- An IDX out of range: the command's own error, from any state (R79). -/
theorem exec_operandError {i : Instr} {e : ErrorCode} (h : i.operandError = some e) (s : State) :
    exec i s = .next (s.errored (errorNumber e)) ∧
      (e = .indexOutOfRange ∨ e = .invalidShiftAmount) := by
  cases i <;> simp [Instr.operandError, Instr.idxUse] at h <;> obtain ⟨h, rfl⟩ := h <;>
    simp only [exec, execLoadw, execSeth, execReadh, execReadw, execReadv, execReadk, execShl,
      execShr, execRotl, execRotr] <;>
    first
    | (rw [withIndex_ge h]; exact ⟨rfl, by simp⟩)
    | (rw [withShift_ge h]; exact ⟨rfl, by simp⟩)

/-- Reading an element out, inverted. -/
theorem answerElem_next {x : Elem} {s t : State} (h : answerElem x s = .next t) :
    s.isWritten x = true ∧ t = s.answered ⟨s.wordAt x, 0⟩ := by
  rw [answerElem_eq] at h
  split at h
  · rename_i hw
    exact ⟨hw, by cases h; rfl⟩
  · cases h

/-- The written check, inverted. -/
theorem withWritten_next {xs : List Elem} {s t u : State}
    (h : withWritten xs s (.next u) = .next t) : s.firstUnwritten xs = none ∧ t = u := by
  rw [withWritten_eq] at h
  split at h
  · cases h
  · rename_i hn
    exact ⟨hn, by cases h; rfl⟩

/-- COMPRESS's check is EXPAND's and H's. -/
theorem compressWritten_iff {s : State} :
    s.firstUnwritten (blockElems ++ hashElems) = none ↔ s.blockWritten ∧ s.hashWritten := by
  rw [blockWritten_iff, hashWritten_iff, firstUnwritten_eq_none, firstUnwritten_eq_none,
    firstUnwritten_eq_none]
  simp only [List.mem_append, or_imp, forall_and]

/-- All the next states a command with a legal IDX can leave. -/
theorem exec_legal_cases {i : Instr} {s t : State} (hw : i.operandError = none)
    (h : exec i s = .next t) :
    (onlyAnswers i = true ∧ ∃ r, t = s.answered ⟨r, 0⟩) ∨
    (i = .init ∧ t = { s with h := writeAll s.cfg.ivTable }.answered ⟨0, 0⟩) ∨
    (∃ k v, ∃ hk : k.toNat < 16, i = .loadw k v ∧
      t = { s with w := s.w.write (blockIndex ⟨k.toNat, hk⟩) v }.answered ⟨0, 0⟩) ∨
    (∃ k v, ∃ hk : k.toNat < 8, i = .seth k v ∧
      t = { s with h := s.h.write ⟨k.toNat, hk⟩ v }.answered ⟨0, 0⟩) ∨
    (i = .expand ∧ s.blockWritten ∧ t = { s with w := s.w.expand }.answered ⟨0, 0⟩) ∨
    (i = .compress ∧ s.blockWritten ∧ s.hashWritten ∧ t = s.compressed.answered ⟨0, 0⟩) ∨
    (i = .clrerr ∧ t = { s with errcode := 0 }.answered ⟨0, 0⟩) := by
  cases i <;> simp only [Instr.operandError, Instr.idxUse, ite_eq_left_iff, reduceCtorEq,
    imp_false, Decidable.not_not] at hw <;>
  simp only [exec, execNop, execInit, execLoadw, execExpand, execCompress, execSeth, execReadh,
    execReadw, execReadv, execReadk, execRdstat, execClrerr, execAnd, execOr, execXor, execNot,
    execAdd, execShl, execShr, execRotl, execRotr, execCh, execMaj, execBsig0, execBsig1,
    execSsig0, execSsig1, respond_zero, Host.Outcome.next.injEq] at h
  case init => exact .inr (.inl ⟨rfl, h.symm⟩)
  case loadw k v =>
    rw [withIndex_lt hw] at h
    cases h
    exact .inr (.inr (.inl ⟨k, v, hw, rfl, by rw [← respond_zero]⟩))
  case seth k v =>
    rw [withIndex_lt hw] at h
    cases h
    exact .inr (.inr (.inr (.inl ⟨k, v, hw, rfl, by rw [← respond_zero]⟩)))
  case expand =>
    obtain ⟨hn, rfl⟩ := withWritten_next h
    exact .inr (.inr (.inr (.inr (.inl ⟨rfl, blockWritten_iff.2 hn, rfl⟩))))
  case compress =>
    obtain ⟨hn, rfl⟩ := withWritten_next h
    obtain ⟨hb, hh⟩ := compressWritten_iff.1 hn
    exact .inr (.inr (.inr (.inr (.inr (.inl ⟨rfl, hb, hh, rfl⟩)))))
  case clrerr => exact .inr (.inr (.inr (.inr (.inr (.inr ⟨rfl, h.symm⟩)))))
  all_goals refine .inl ⟨rfl, ?_⟩
  case readh => rw [withIndex_lt hw] at h; exact ⟨_, (answerElem_next h).2⟩
  case readw => rw [withIndex_lt hw] at h; exact ⟨_, (answerElem_next h).2⟩
  case readv => rw [withIndex_lt hw] at h; exact ⟨_, (answerElem_next h).2⟩
  case readk => rw [withIndex_lt hw] at h; cases h; exact ⟨_, respond_zero _ _⟩
  case shl => rw [withShift_lt hw] at h; cases h; exact ⟨_, respond_zero _ _⟩
  case shr => rw [withShift_lt hw] at h; cases h; exact ⟨_, respond_zero _ _⟩
  case rotl => rw [withShift_lt hw] at h; cases h; exact ⟨_, respond_zero _ _⟩
  case rotr => rw [withShift_lt hw] at h; cases h; exact ⟨_, respond_zero _ _⟩
  all_goals exact ⟨_, h.symm⟩

/-- All the next states a command can leave: those of a legal IDX, or its error's. -/
theorem exec_cases {i : Instr} {s t : State} (h : exec i s = .next t) :
    (∃ c, (c = 3 ∨ c = 6) ∧ t = s.errored c ∧ i.operandError ≠ none) ∨
    (onlyAnswers i = true ∧ ∃ r, t = s.answered ⟨r, 0⟩) ∨
    (i = .init ∧ t = { s with h := writeAll s.cfg.ivTable }.answered ⟨0, 0⟩) ∨
    (∃ k v, ∃ hk : k.toNat < 16, i = .loadw k v ∧
      t = { s with w := s.w.write (blockIndex ⟨k.toNat, hk⟩) v }.answered ⟨0, 0⟩) ∨
    (∃ k v, ∃ hk : k.toNat < 8, i = .seth k v ∧
      t = { s with h := s.h.write ⟨k.toNat, hk⟩ v }.answered ⟨0, 0⟩) ∨
    (i = .expand ∧ s.blockWritten ∧ t = { s with w := s.w.expand }.answered ⟨0, 0⟩) ∨
    (i = .compress ∧ s.blockWritten ∧ s.hashWritten ∧ t = s.compressed.answered ⟨0, 0⟩) ∨
    (i = .clrerr ∧ t = { s with errcode := 0 }.answered ⟨0, 0⟩) := by
  cases ho : i.operandError with
  | none => exact .inr (exec_legal_cases ho h)
  | some e =>
    obtain ⟨he, hc⟩ := exec_operandError ho s
    rw [he] at h
    cases h
    refine .inl ⟨_, ?_, rfl, by simp⟩
    rcases hc with rfl | rfl <;> simp [errorNumber]

/-- A command faults only on an unwritten element, and only these commands do. -/
theorem exec_fault {i : Instr} {s : State} {f : Fault} (h : exec i s = .fault f) :
    ∃ x, f = .unwritten x ∧ s.isWritten x = false ∧
      (i = .expand ∨ i = .compress ∨ (∃ k, i = .readh k) ∨ (∃ k, i = .readw k) ∨
        ∃ k, i = .readv k) := by
  have elem : ∀ x, answerElem x s = .fault f → f = .unwritten x ∧ s.isWritten x = false := by
    intro x hx
    rw [answerElem_eq] at hx
    split at hx
    · cases hx
    · rename_i hw
      exact ⟨by cases hx; rfl, by simpa using hw⟩
  have written : ∀ xs u, withWritten xs s (.next u) = .fault f →
      ∃ x, f = .unwritten x ∧ s.isWritten x = false := by
    intro xs u hx
    rw [withWritten_eq] at hx
    split at hx
    · rename_i x hs
      obtain ⟨_, _, _, _, hw⟩ := firstUnwritten_eq_some.1 hs
      exact ⟨x, by cases hx; rfl, hw⟩
    · cases hx
  have index : ∀ {n : Nat} {k : Idx} {g : Fin n → Host.Outcome State Fault Refusal},
      withIndex n k s g = .fault f → ∃ j, g j = .fault f := by
    intro n k g hx
    unfold withIndex at hx
    split at hx
    · exact ⟨_, hx⟩
    · cases hx
  have shift : ∀ {n : Idx} {g : Nat → State}, withShift n s (fun m => .next (g m)) ≠ .fault f := by
    intro n g hx
    unfold withShift at hx
    split at hx <;> cases hx
  cases i <;> simp only [exec, execLoadw, execSeth, execReadh, execReadw, execReadv, execReadk,
    execShl, execShr, execRotl, execRotr, execExpand, execCompress] at h
  case expand => obtain ⟨x, hf, hw⟩ := written _ _ h; exact ⟨x, hf, hw, by simp⟩
  case compress => obtain ⟨x, hf, hw⟩ := written _ _ h; exact ⟨x, hf, hw, by simp⟩
  case readh => obtain ⟨j, hj⟩ := index h; exact ⟨_, (elem _ hj).1, (elem _ hj).2, by simp⟩
  case readw => obtain ⟨j, hj⟩ := index h; exact ⟨_, (elem _ hj).1, (elem _ hj).2, by simp⟩
  case readv => obtain ⟨j, hj⟩ := index h; exact ⟨_, (elem _ hj).1, (elem _ hj).2, by simp⟩
  case loadw => obtain ⟨j, hj⟩ := index h; cases hj
  case seth => obtain ⟨j, hj⟩ := index h; cases hj
  case readk => obtain ⟨j, hj⟩ := index h; cases hj
  case shl => exact absurd h shift
  case shr => exact absurd h shift
  case rotl => exact absurd h shift
  case rotr => exact absurd h shift
  all_goals cases h

end Sys2Proof.Machine
end

