-- ==== Sys2Proof/Laws/Host.lean ====
section
/-!
SUPPORT. The host's functions: bits and bytes, hex digits, and driving the block
(spec/45_host.md R211 to R219, spec/40_alu.md R112).
-/

namespace Sys2Proof.Machine

open Sys2Proof

/-! ### Bits -/

@[simp] theorem bitsBE_length (n v : Nat) : (bitsBE n v).length = n := by simp [bitsBE]

/-- The bits of a number: those of its half, then its lowest. -/
theorem bitsBE_succ (n v : Nat) : bitsBE (n + 1) v = bitsBE n (v / 2) ++ [v.testBit 0] := by
  simp only [bitsBE, List.range_succ, List.map_append, List.map_cons, List.map_nil]
  congr 1
  · apply List.map_congr_left
    intro k hk
    simp at hk
    rw [show n + 1 - 1 - k = (n - 1 - k) + 1 by omega, Nat.testBit_succ]
  · simp

theorem foldl_bits (bs : List Bool) (v : Nat) :
    bs.foldl (fun v b => 2 * v + b.toNat) v = v * 2 ^ bs.length + natOfBits bs := by
  induction bs generalizing v with
  | nil => simp [natOfBits]
  | cons b bs ih =>
    simp only [natOfBits, List.foldl_cons, List.length_cons]
    rw [ih, ih (2 * 0 + b.toNat), pow_succ]
    ring

/-- The number two bit lists spell one after the other. -/
theorem natOfBits_append (as bs : List Bool) :
    natOfBits (as ++ bs) = natOfBits as * 2 ^ bs.length + natOfBits bs := by
  rw [natOfBits, List.foldl_append, foldl_bits]
  rfl

/-- The bits of a number spell it, modulo the power of two their count gives. -/
theorem natOfBits_bitsBE (n v : Nat) : natOfBits (bitsBE n v) = v % 2 ^ n := by
  induction n generalizing v with
  | zero => simp [bitsBE, natOfBits, Nat.mod_one]
  | succ n ih =>
    rw [bitsBE_succ, natOfBits_append, ih]
    simp [natOfBits, Nat.testBit_zero]
    rw [pow_succ, Nat.mul_comm (2 ^ n), Nat.mod_mul]
    rcases Nat.mod_two_eq_zero_or_one v with h | h <;> simp [h] <;> ring

theorem encodeBits_append (a b : List Byte) :
    encodeBits (a ++ b) = encodeBits a ++ encodeBits b := by simp [encodeBits]

@[simp] theorem encodeBits_length (bs : List Byte) : (encodeBits bs).length = 8 * bs.length := by
  induction bs with
  | nil => rfl
  | cons b bs ih =>
    have h : encodeBits (b :: bs) = bitsBE 8 b.toNat ++ encodeBits bs := by simp [encodeBits]
    rw [h, List.length_append, ih, bitsBE_length, List.length_cons]
    omega

/-! ### Hex digits (R112) -/

@[simp] theorem hexDigits_length (k v : Nat) : (hexDigits k v).length = k := by
  induction k generalizing v with
  | zero => rfl
  | succ k ih => simp [hexDigits, ih]

theorem digitValue_hexDigit (d : Nat) (h : d < 16) : digitValue .hex (hexDigit d) = .ok d := by
  interval_cases d <;> rfl

/-- Reading two digit lists one after the other. -/
theorem readDigits_append (b : Base) (v : Nat) (cs ds : List Char) :
    readDigits b v (cs ++ ds) =
      match readDigits b v cs with
      | .error r => .error r
      | .ok w => readDigits b w ds := by
  induction cs generalizing v with
  | nil => rfl
  | cons c cs ih =>
    simp only [List.cons_append, readDigits]
    split <;> simp [ih]

/-! ### Driving the block (R219) -/

/-- A command that runs and answers with RCODE 0 leaves its state and its response. -/
theorem issue_next {c : Command} {i : Instr} {s t : State} {r : Response} (hd : decode c = .ok i)
    (hf : s.fsm = .idle) (hx : exec i s = .next t) (hr : t.responses = s.responses ++ [r])
    (h0 : r.code = 0) : issue c s = .ok (t, r) := by
  have h1 : step { s with input := .command c :: s.input } = .next t := by
    rw [step_eq]
    show (if s.fsm = .idle then runCommand c s else _) = _
    rw [if_pos hf, runCommand_ok _ hd]
    exact hx
  unfold issue
  rw [h1]
  simp [hr, h0]

/-- Driving two command lists one after the other. -/
theorem drive_append (as bs : List Command) (s : State) :
    drive (as ++ bs) s =
      match drive as s with
      | .error e => .error e
      | .ok (t, rs) =>
        match drive bs t with
        | .error e => .error e
        | .ok (u, rs') => .ok (u, rs ++ rs') := by
  induction as generalizing s with
  | nil =>
    simp only [List.nil_append, drive]
    split <;> simp_all
  | cons c cs ih =>
    simp only [List.cons_append, drive]
    split
    · rfl
    · rename_i t r h
      rw [ih]
      cases drive cs t with
      | error e => rfl
      | ok x =>
        obtain ⟨u, rs⟩ := x
        simp only
        cases drive bs u <;> rfl

end Sys2Proof.Machine
end

