-- ==== Sys2Proof/Laws/PerInstr.lean ====
section
/-!
SUPPORT. The per-instruction family `EncodeFields`: the encoder writes RSV = 0, the command's
opcode, and its IDX, which is 0 where the command does not use IDX (spec/30_encoding.md R73 to
R78).
-/

namespace Sys2Proof.Laws

open Sys2Proof

/-- The fields of an encoded command. -/
def EncodeFields.Statement (i : Instr) : Prop :=
  (encode i).rsv = 0 ∧ (encode i).opc = i.opcode ∧ (encode i).idx = i.idxUse.2 ∧
    (i.idxUse.1 = .unused → (encode i).idx = 0)

/-- A command meets the family when its own IDX is 0 where it does not use IDX. -/
theorem encodeFields_of (i : Instr) (h : i.idxUse.1 = .unused → i.idxUse.2 = 0) :
    EncodeFields.Statement i := by
  refine ⟨commandWord_rsv .., commandWord_opc .., commandWord_idx .., fun hu => ?_⟩
  exact (commandWord_idx ..).trans (h hu)

theorem EncodeFields.nop :
    EncodeFields.Statement .nop :=
  encodeFields_of _ (by simp [Instr.idxUse])

theorem EncodeFields.init :
    EncodeFields.Statement .init :=
  encodeFields_of _ (by simp [Instr.idxUse])

theorem EncodeFields.loadw (a : Idx) (b : Word) :
    EncodeFields.Statement (.loadw a b) :=
  encodeFields_of _ (by simp [Instr.idxUse])

theorem EncodeFields.expand :
    EncodeFields.Statement .expand :=
  encodeFields_of _ (by simp [Instr.idxUse])

theorem EncodeFields.compress :
    EncodeFields.Statement .compress :=
  encodeFields_of _ (by simp [Instr.idxUse])

theorem EncodeFields.seth (a : Idx) (b : Word) :
    EncodeFields.Statement (.seth a b) :=
  encodeFields_of _ (by simp [Instr.idxUse])

theorem EncodeFields.readh (a : Idx) :
    EncodeFields.Statement (.readh a) :=
  encodeFields_of _ (by simp [Instr.idxUse])

theorem EncodeFields.readw (a : Idx) :
    EncodeFields.Statement (.readw a) :=
  encodeFields_of _ (by simp [Instr.idxUse])

theorem EncodeFields.readv (a : Idx) :
    EncodeFields.Statement (.readv a) :=
  encodeFields_of _ (by simp [Instr.idxUse])

theorem EncodeFields.readk (a : Idx) :
    EncodeFields.Statement (.readk a) :=
  encodeFields_of _ (by simp [Instr.idxUse])

theorem EncodeFields.rdstat :
    EncodeFields.Statement .rdstat :=
  encodeFields_of _ (by simp [Instr.idxUse])

theorem EncodeFields.clrerr :
    EncodeFields.Statement .clrerr :=
  encodeFields_of _ (by simp [Instr.idxUse])

theorem EncodeFields.and (a b : Word) :
    EncodeFields.Statement (.and a b) :=
  encodeFields_of _ (by simp [Instr.idxUse])

theorem EncodeFields.or (a b : Word) :
    EncodeFields.Statement (.or a b) :=
  encodeFields_of _ (by simp [Instr.idxUse])

theorem EncodeFields.xor (a b : Word) :
    EncodeFields.Statement (.xor a b) :=
  encodeFields_of _ (by simp [Instr.idxUse])

theorem EncodeFields.not (a : Word) :
    EncodeFields.Statement (.not a) :=
  encodeFields_of _ (by simp [Instr.idxUse])

theorem EncodeFields.add (a b : Word) :
    EncodeFields.Statement (.add a b) :=
  encodeFields_of _ (by simp [Instr.idxUse])

theorem EncodeFields.shl (a : Word) (b : Idx) :
    EncodeFields.Statement (.shl a b) :=
  encodeFields_of _ (by simp [Instr.idxUse])

theorem EncodeFields.shr (a : Word) (b : Idx) :
    EncodeFields.Statement (.shr a b) :=
  encodeFields_of _ (by simp [Instr.idxUse])

theorem EncodeFields.rotl (a : Word) (b : Idx) :
    EncodeFields.Statement (.rotl a b) :=
  encodeFields_of _ (by simp [Instr.idxUse])

theorem EncodeFields.rotr (a : Word) (b : Idx) :
    EncodeFields.Statement (.rotr a b) :=
  encodeFields_of _ (by simp [Instr.idxUse])

theorem EncodeFields.ch (a b c : Word) :
    EncodeFields.Statement (.ch a b c) :=
  encodeFields_of _ (by simp [Instr.idxUse])

theorem EncodeFields.maj (a b c : Word) :
    EncodeFields.Statement (.maj a b c) :=
  encodeFields_of _ (by simp [Instr.idxUse])

theorem EncodeFields.bsig0 (a : Word) :
    EncodeFields.Statement (.bsig0 a) :=
  encodeFields_of _ (by simp [Instr.idxUse])

theorem EncodeFields.bsig1 (a : Word) :
    EncodeFields.Statement (.bsig1 a) :=
  encodeFields_of _ (by simp [Instr.idxUse])

theorem EncodeFields.ssig0 (a : Word) :
    EncodeFields.Statement (.ssig0 a) :=
  encodeFields_of _ (by simp [Instr.idxUse])

theorem EncodeFields.ssig1 (a : Word) :
    EncodeFields.Statement (.ssig1 a) :=
  encodeFields_of _ (by simp [Instr.idxUse])

end Sys2Proof.Laws
end

