-- ==== Sys2Proof/Laws/Schedule.lean ====
section
/-!
SUPPORT. What schedule expansion does to the words and to the flags of W (spec/42_schedule.md R150,
R151).
-/

namespace Sys2Proof.Machine

open Sys2Proof

/-- The schedule indices are those from 16 up. -/
theorem mem_schedIndices (t : Fin 64) : t ∈ schedIndices ↔ 16 ≤ t.val := by
  revert t
  decide

/-- One schedule step writes its own word and no other. -/
theorem schedStep_get (w : Vector Word 64) (t : Fin 64) (j : Nat) (hj : j < 64) :
    (schedStep w t)[j] =
      if 16 ≤ t.val ∧ t.val = j then
        smallSigma1 w[t.val - 2] + w[t.val - 7] + smallSigma0 w[t.val - 15] + w[t.val - 16]
      else w[j] := by
  unfold schedStep
  by_cases h : 16 ≤ t.val
  · simp [h, Vector.getElem_set]
  · simp [h]

/-- Steps in a list leave every word alone whose index is not in the list. -/
theorem foldl_schedStep_frame (w : Vector Word 64) (ts : List (Fin 64)) (j : Nat) (hj : j < 64)
    (hne : ∀ t ∈ ts, t.val ≠ j) : (ts.foldl schedStep w)[j] = w[j] := by
  induction ts generalizing w with
  | nil => rfl
  | cons t ts ih =>
    rw [List.foldl_cons, ih _ fun x hx => hne x (by simp [hx]), schedStep_get, if_neg]
    exact fun h => hne t (by simp) h.2

/-- The words of a bank under schedule steps are the steps on its words. -/
theorem foldl_bankStep_word (b : Bank 64) (ts : List (Fin 64)) :
    (ts.foldl Bank.schedStep b).word = ts.foldl schedStep b.word := by
  induction ts generalizing b with
  | nil => rfl
  | cons t ts ih => rw [List.foldl_cons, ih]; rfl

/-- One schedule step on a bank sets the flag of its word, if it has one, and no other. -/
theorem bankStep_wr (b : Bank 64) (t : Fin 64) (j : Nat) (hj : j < 64) :
    (b.schedStep t).wr[j] = (decide (16 ≤ t.val ∧ t.val = j) || b.wr[j]) := by
  by_cases h : 16 ≤ t.val
  · simp only [Bank.schedStep, h, if_true, Vector.getElem_set, true_and]
    split <;> simp [*]
  · simp [Bank.schedStep, h]

/-- Schedule steps on a bank set the flags of the words they write. -/
theorem foldl_bankStep_wr (b : Bank 64) (ts : List (Fin 64)) (j : Nat) (hj : j < 64) :
    (ts.foldl Bank.schedStep b).wr[j] = (decide (∃ t ∈ ts, 16 ≤ t.val ∧ t.val = j) || b.wr[j]) := by
  induction ts generalizing b with
  | nil => simp
  | cons t ts ih =>
    simp only [List.foldl_cons, ih, bankStep_wr, List.mem_cons, exists_eq_or_imp,
      Bool.decide_or, Bool.or_left_comm, Bool.or_assoc]

/-- The words after an expansion. -/
theorem expand_word (b : Bank 64) : b.expand.word = expandWords b.word := foldl_bankStep_word _ _

/-- The flags after an expansion: true from 16 up, and as they were below. -/
theorem expand_wr (b : Bank 64) (j : Nat) (hj : j < 64) :
    b.expand.wr[j] = (decide (16 ≤ j) || b.wr[j]) := by
  refine (foldl_bankStep_wr _ _ _ _).trans ?_
  have key : (∃ t ∈ schedIndices, 16 ≤ t.val ∧ t.val = j) ↔ 16 ≤ j := by
    constructor
    · rintro ⟨t, -, h, rfl⟩
      exact h
    · exact fun h => ⟨⟨j, hj⟩, (mem_schedIndices _).2 h, h, rfl⟩
  rw [decide_eq_decide.2 key]

/-- The records of rounds listed one after another. -/
theorem roundRecords_append (k w : Vector Word 64) (x : Work) (xs : List (Fin 64)) (t : Fin 64) :
    roundRecords k w x (xs ++ [t]) =
      roundRecords k w x xs ++ [⟨t, roundAt k w (xs.foldl (roundAt k w) x) t⟩] := by
  induction xs generalizing x with
  | nil => rfl
  | cons y ys ih => simp [roundRecords, ih]

end Sys2Proof.Machine
end

