-- ==== Sys2Proof/Laws/Ports.lean ====
section
/-!
SUPPORT. What one clock edge can do in each situation (spec/30_encoding.md R72, spec/43_compress.md
R164), and edges one after another.
-/

namespace Sys2Proof.Machine

open Sys2Proof

/-- `cmd_ready` outside reset. -/
theorem cmdReady_iff (p : PortState) :
    (p.out false).cmdReady = true ↔ p.arch.fsm = .idle ∧ p.rsp = none := by
  simp [PortState.out, PortState.ready]

/-- An edge with `rst` high resets. -/
theorem edge_reset {p : PortState} {i : PortIn} (h : i.rst = true) : p.edge i = .next p.reset := by
  simp [PortState.edge, h]

/-- An edge in IDLE with a command offered accepts it. -/
theorem edge_accept {p : PortState} {i : PortIn} (h : i.rst = false) (hf : p.arch.fsm = .idle)
    (hr : p.rsp = none) (hv : i.cmdValid = true) : p.edge i = p.accept i.cmd i.stall := by
  simp [PortState.edge, h, hr, hf, hv]

/-- An edge in a walk, without a stall, goes one state on. -/
theorem edge_walk {p : PortState} {i : PortIn} (h : i.rst = false) (hf : p.arch.fsm ≠ .idle)
    (hr : p.rsp = none) (hs : i.stall = false) : p.edge i = .next p.advance := by
  simp [PortState.edge, h, hr, hf, hs]

/-- Edges of two lists: the second list goes on from where the first arrives. -/
theorem edges_append (p : PortState) (xs ys : List PortIn) :
    p.edges (xs ++ ys) =
      match p.edges xs with
      | .next q => q.edges ys
      | .fault f => .fault f
      | .refused r => .refused r := by
  induction xs generalizing p with
  | nil => rfl
  | cons x xs ih =>
    simp only [List.cons_append, PortState.edges]
    split
    · exact ih _
    · rfl
    · rfl

end Sys2Proof.Machine
end

