-- ==== Sys2Proof/Tests/Slice0.lean ====
section
/-!
SUPPORT. The model's own tests: ill-formed commands, words written out bit by bit from
spec/30_encoding.md, the vectors of spec/95_test_vectors.md, and a witness for every statement that
has hypotheses. Expected values come from the spec, never from the model.
-/

namespace Sys2Proof.Tests

open Sys2Proof Sys2Proof.Machine

/-! ### Small states and observations -/

/-- The word at an index of the test block "abc" (spec/95_test_vectors.md L2.3). -/
def abcBlock : BlockWords := [0x61626380, 0, 0, 0, 0, 0, 0, 0, 0, 0, 0, 0, 0, 0, 0, 0x18]

/-- H as INIT leaves it, and the block "abc" in W[0..15]; W[16..63] and V unwritten. -/
def abcState (trace : Bool) : State :=
  { State.resetWith ⟨Config.stdK, Config.stdIV, trace⟩ with
    h := writeAll Config.stdIV
    w := ⟨blockSchedule abcBlock, Vector.ofFn fun t : Fin 64 => decide (t.val < 16)⟩ }

/-- The same with one element of W, or of H, unwritten. -/
def abcWithoutW (t : Fin 64) : State :=
  { abcState false with w := ⟨(abcState false).w.word, (abcState false).w.wr.set t.val false⟩ }

def abcWithoutH (i : Fin 8) : State :=
  { abcState false with h := ⟨Config.stdIV, (writeAll Config.stdIV).wr.set i.val false⟩ }

/-- Every element of V written, as only COMPRESS leaves it. -/
def vState : State := { abcState false with v := writeAll Config.stdIV }

/-- The last response of an outcome. -/
def lastResponse : Host.Outcome State Fault Refusal → Option Response
  | .next t => t.responses.getLast?
  | .fault _ => none
  | .refused _ => none

/-- The fault of an outcome. -/
def faultOf : Host.Outcome State Fault Refusal → Option Fault
  | .next _ => none
  | .fault f => some f
  | .refused _ => none

/-- A field of the next state of an outcome. -/
def field {α : Type} (f : State → α) : Host.Outcome State Fault Refusal → Option α
  | .next t => some (f t)
  | .fault _ => none
  | .refused _ => none

/-- The response of one command to the block right after reset. -/
def answerOf (i : Instr) : Option Response := lastResponse (exec i State.reset)

/-- Whether an outcome is a next state. -/
def isNext : Host.Outcome State Fault Refusal → Bool
  | .next _ => true
  | .fault _ => false
  | .refused _ => false

theorem runs {o : Host.Outcome State Fault Refusal} (h : isNext o = true) : ∃ t, o = .next t := by
  cases o with
  | next t => exact ⟨t, rfl⟩
  | fault f => cases h
  | refused r => cases h

/-- A bare command word, as `.word` places it. -/
def word (w : Word) : Command := ⟨w, 0, 0, 0⟩

/-! ### Ill-formed commands: each check refuses one -/

theorem test_wf_loadw_bound : (Instr.loadw 15 1).wellFormed = true ∧ (Instr.loadw 16 1).wellFormed = false := by decide
theorem test_wf_seth_bound : (Instr.seth 7 1).wellFormed = true ∧ (Instr.seth 8 1).wellFormed = false := by decide
theorem test_wf_readh_bound : (Instr.readh 7).wellFormed = true ∧ (Instr.readh 8).wellFormed = false := by decide
theorem test_wf_readw_bound : (Instr.readw 63).wellFormed = true ∧ (Instr.readw 64).wellFormed = false := by decide
theorem test_wf_readv_bound : (Instr.readv 7).wellFormed = true ∧ (Instr.readv 8).wellFormed = false := by decide
theorem test_wf_readk_bound : (Instr.readk 63).wellFormed = true ∧ (Instr.readk 64).wellFormed = false := by decide
theorem test_wf_shift_amounts :
    (Instr.shl 1 31).wellFormed = true ∧ (Instr.shl 1 32).wellFormed = false ∧
    (Instr.shr 1 32).wellFormed = false ∧ (Instr.rotl 1 32).wellFormed = false ∧
    (Instr.rotr 1 255).wellFormed = false := by decide
theorem test_wf_error_codes :
    (Instr.readw 64).operandError = some .indexOutOfRange ∧
    (Instr.rotr 1 32).operandError = some .invalidShiftAmount := by decide

/-! ### Decoding: words written out as RSV, IDX, OPC -/

theorem test_decode_control :
    ∀ p ∈ ([(0b0000000000000000_00000000_00000000#32, .nop), (0b0000000000000000_00000000_00000001#32, .init),
      (0b0000000000000000_00001111_00000010#32, .loadw 15 0xA1B2C3D4),
      (0b0000000000000000_00000111_00000101#32, .seth 7 0xA1B2C3D4),
      (0b0000000000000000_00000101_00000110#32, .readh 5), (0b0000000000000000_00111111_00000111#32, .readw 63),
      (0b0000000000000000_00000110_00001000#32, .readv 6), (0b0000000000000000_00100001_00001001#32, .readk 33),
      (0b0000000000000000_00000000_00001010#32, .rdstat), (0b0000000000000000_00000000_00001011#32, .clrerr)]
        : List (Word × Instr)),
      decode ⟨p.1, 0xA1B2C3D4, 0x55555555, 0x0F0F0F0F⟩ = .ok p.2 := by decide

theorem test_decode_schedule_and_compress :
    decode ⟨0b0000000000000000_00000000_00000011#32, 1, 2, 3⟩ = .ok .expand ∧
    decode ⟨0b0000000000000000_00000000_00000100#32, 1, 2, 3⟩ = .ok .compress := by decide

theorem test_decode_alu :
    ∀ p ∈ ([(0b0000000000000000_00000000_00010000#32, .and 0xA1B2C3D4 0x55555555),
      (0b0000000000000000_00000000_00010001#32, .or 0xA1B2C3D4 0x55555555),
      (0b0000000000000000_00000000_00010010#32, .xor 0xA1B2C3D4 0x55555555),
      (0b0000000000000000_00000000_00010011#32, .not 0xA1B2C3D4),
      (0b0000000000000000_00000000_00010100#32, .add 0xA1B2C3D4 0x55555555),
      (0b0000000000000000_00000100_00010101#32, .shl 0xA1B2C3D4 4),
      (0b0000000000000000_00011111_00010110#32, .shr 0xA1B2C3D4 31),
      (0b0000000000000000_00001000_00010111#32, .rotl 0xA1B2C3D4 8),
      (0b0000000000000000_00101000_00011000#32, .rotr 0xA1B2C3D4 40)] : List (Word × Instr)),
      decode ⟨p.1, 0xA1B2C3D4, 0x55555555, 0x0F0F0F0F⟩ = .ok p.2 := by decide

theorem test_decode_functions :
    ∀ p ∈ ([(0b0000000000000000_00000000_00100000#32, .ch 0xA1B2C3D4 0x55555555 0x0F0F0F0F),
      (0b0000000000000000_00000000_00100001#32, .maj 0xA1B2C3D4 0x55555555 0x0F0F0F0F),
      (0b0000000000000000_00000000_00100010#32, .bsig0 0xA1B2C3D4),
      (0b0000000000000000_00000000_00100011#32, .bsig1 0xA1B2C3D4),
      (0b0000000000000000_00000000_00100100#32, .ssig0 0xA1B2C3D4),
      (0b0000000000000000_00000000_00100101#32, .ssig1 0xA1B2C3D4)] : List (Word × Instr)),
      decode ⟨p.1, 0xA1B2C3D4, 0x55555555, 0x0F0F0F0F⟩ = .ok p.2 := by decide

theorem test_illegal_reserved_bits :
    classify (word 0x00010000) = .error .illegalCommand ∧
    classify (word 0x80000000) = .error .illegalCommand ∧
    classify (word 0x00102015) = .error .illegalCommand := by decide

theorem test_illegal_unassigned_opcodes :
    classify (word 0x0000000c) = .error .illegalCommand ∧
    classify (word 0x0000000f) = .error .illegalCommand ∧
    classify (word 0x00000019) = .error .illegalCommand ∧
    classify (word 0x0000001f) = .error .illegalCommand ∧
    classify (word 0x00000026) = .error .illegalCommand ∧
    classify (word 0x000000ff) = .error .illegalCommand ∧
    classify (word 0x000001ff) = .error .illegalCommand := by decide

theorem test_illegal_unused_index :
    classify (word 0x00000101) = .error .illegalCommand ∧
    classify (word 0x00000110) = .error .illegalCommand := by decide

theorem test_encoder_words :
    encode (.rotl 0x80000001 1) = ⟨0x00000117, 0x80000001, 0, 0⟩ ∧
    encode (.readk 64) = ⟨0x00004009, 0, 0, 0⟩ ∧
    encode (.maj 1 2 3) = ⟨0x00000021, 1, 2, 3⟩ := by decide

/-- The bits of DA stand above CMD's in a table word. -/
theorem test_table_words :
    decodeTableWord 128 0x000000030000000200000001_00000020 = some (.ch 1 2 3) ∧
    decodeTableWord 32 0x00000F02 = some (.loadw 15 0) ∧ decodeTableWord 32 0x0000000C = none := by decide

/-! ### ALU and function vectors (L2.1, L2.2) -/

theorem test_and : answerOf (.and 0xf0f0f0f0 0x0ff00ff0) = some ⟨0x00f000f0, 0⟩ := by decide
theorem test_or : answerOf (.or 0xf0f0f0f0 0x0ff00ff0) = some ⟨0xfff0fff0, 0⟩ := by decide
theorem test_xor : answerOf (.xor 0xf0f0f0f0 0x0ff00ff0) = some ⟨0xff00ff00, 0⟩ := by decide
theorem test_not : answerOf (.not 0x12345678) = some ⟨0xedcba987, 0⟩ := by decide
theorem test_add_wraps : answerOf (.add 0xffffffff 1) = some ⟨0, 0⟩ := by decide
theorem test_add : answerOf (.add 0x6a09e667 0x428a2f98) = some ⟨0xac9415ff, 0⟩ := by decide
theorem test_shl : answerOf (.shl 0x12345678 4) = some ⟨0x23456780, 0⟩ := by decide
theorem test_shl_width : answerOf (.shl 1 32) = some ⟨0, 3⟩ := by decide
theorem test_shr_is_logical : answerOf (.shr 0x80000000 31) = some ⟨1, 0⟩ := by decide
theorem test_shr_width : answerOf (.shr 0xffffffff 32) = some ⟨0, 3⟩ := by decide
theorem test_rotl : answerOf (.rotl 0x12345678 31) = some ⟨0x091a2b3c, 0⟩ := by decide
theorem test_rotl_zero : answerOf (.rotl 0x12345678 0) = some ⟨0x12345678, 0⟩ := by decide
theorem test_rotr : answerOf (.rotr 0x12345678 8) = some ⟨0x78123456, 0⟩ := by decide
theorem test_rotr_past_width : answerOf (.rotr 0x12345678 40) = some ⟨0, 3⟩ := by decide
theorem test_ch : answerOf (.ch 0x510e527f 0x9b05688c 0x1f83d9ab) = some ⟨0x1f85c98c, 0⟩ := by decide
theorem test_ch_all_ones : answerOf (.ch 0xffffffff 0x12345678 0x9abcdef0) = some ⟨0x12345678, 0⟩ := by decide
theorem test_maj : answerOf (.maj 0xff00ff00 0x12345678 0x9abcdef0) = some ⟨0x9a34de70, 0⟩ := by decide
theorem test_bsig0 : answerOf (.bsig0 0x6a09e667) = some ⟨0xce20b47e, 0⟩ := by decide
theorem test_bsig1 : answerOf (.bsig1 0x510e527f) = some ⟨0x3587272b, 0⟩ := by decide
theorem test_ssig0 : answerOf (.ssig0 0x61626380) = some ⟨0x940e90ef, 0⟩ := by decide
theorem test_ssig0_shift_drops : answerOf (.ssig0 0xffffffff) = some ⟨0x1fffffff, 0⟩ := by decide
theorem test_ssig1 : answerOf (.ssig1 0x61626380) = some ⟨0x7da86405, 0⟩ := by decide
theorem test_ssig1_shift_drops : answerOf (.ssig1 0xffffffff) = some ⟨0x003fffff, 0⟩ := by decide

/-! ### Schedule and compression vectors (L2.3, L2.4) -/

set_option maxRecDepth 20000 in
theorem test_expand_abc :
    field (fun t => (t.w.word[16], t.w.word[31], t.w.word[48], t.w.word[63])) (exec .expand (abcState false)) =
      some (0x61626380, 0xd3b7973b, 0xfb3e89cb, 0x12b1edeb) := by decide +kernel

set_option maxRecDepth 20000 in
theorem test_expand_keeps_block_and_sets_flags :
    field (fun t => (t.w.word[0], t.w.word[15], t.w.wr)) (exec .expand (abcState false)) =
      some (0x61626380, 0x18, Vector.replicate 64 true) := by decide +kernel

set_option maxRecDepth 20000 in
theorem test_compress_abc :
    field (fun t => (t.h, t.v)) (exec .compress (abcState false)) =
      some (writeAll #v[0xba7816bf, 0x8f01cfea, 0x414140de, 0x5dae2223, 0xb00361a3, 0x96177a9c, 0xb410ff61, 0xf20015ad],
        writeAll #v[0x506e3058, 0xd39a2165, 0x04d24d6c, 0xb85e2ce9, 0x5ef50f24, 0xfb121210, 0x948d25b6, 0x961f4894]) := by
  decide +kernel

set_option maxRecDepth 20000 in
theorem test_compress_traces_rounds_in_order :
    field (fun t => (t.trace.length, t.trace.head?, t.trace[62]?)) (exec .compress (abcState true)) =
      some (64,
        some ⟨0, ⟨0x5d6aebcd, 0x6a09e667, 0xbb67ae85, 0x3c6ef372, 0xfa2a4622, 0x510e527f, 0x9b05688c, 0x1f83d9ab⟩⟩,
        some ⟨62, ⟨0xd39a2165, 0x04d24d6c, 0xb85e2ce9, 0xb6ae8fff, 0xfb121210, 0x948d25b6, 0x961f4894, 0xb21bad3d⟩⟩) := by
  decide +kernel

/-! ### Control and error vectors (L2.5) -/

theorem test_nop : field id (exec .nop State.reset) = some (State.reset.answered ⟨0, 0⟩) := by decide
theorem test_init : field State.h (exec .init State.reset) = some (writeAll Config.stdIV) := by decide
theorem test_loadw :
    field (fun t => (t.w.word[15], t.w.wr[15], t.w.wr[14])) (exec (.loadw 15 0x18) State.reset) = some (0x18, true, false) := by
  decide
theorem test_loadw_bound :
    field (fun t => (t.w, t.errcode)) (exec (.loadw 16 1) State.reset) = some (State.reset.w, 6) := by decide
theorem test_seth :
    field (fun t => (t.h.word[7], t.h.wr[7], t.h.wr[6])) (exec (.seth 7 0xf20e533a) State.reset) =
      some (0xf20e533a, true, false) := by decide
theorem test_seth_bound :
    field (fun t => (t.h, t.errcode)) (exec (.seth 8 1) State.reset) = some (State.reset.h, 6) := by decide
theorem test_readh : lastResponse (exec (.readh 7) (abcState false)) = some ⟨0x5be0cd19, 0⟩ := by decide
theorem test_readh_fresh : faultOf (exec (.readh 0) State.reset) = some (.unwritten (.h 0)) := by decide
theorem test_readw : lastResponse (exec (.readw 15) (abcState false)) = some ⟨0x18, 0⟩ := by decide
theorem test_readw_bound : answerOf (.readw 64) = some ⟨0, 6⟩ := by decide
theorem test_readv : lastResponse (exec (.readv 0) vState) = some ⟨0x6a09e667, 0⟩ := by decide
theorem test_readv_bound : answerOf (.readv 8) = some ⟨0, 6⟩ := by decide
theorem test_readk : answerOf (.readk 63) = some ⟨0xc67178f2, 0⟩ := by decide
theorem test_readk_bound : answerOf (.readk 64) = some ⟨0, 6⟩ := by decide
theorem test_rdstat : lastResponse (exec .rdstat { State.reset with errcode := 3 }) = some ⟨0x13, 0⟩ := by decide
theorem test_rdstat_no_error : answerOf .rdstat = some ⟨0, 0⟩ := by decide
theorem test_clrerr : field State.errcode (exec .clrerr { State.reset with errcode := 3 }) = some 0 := by decide
theorem test_first_error_is_kept :
    field (fun t => (t.errcode, t.responses.getLast?)) (exec (.readh 9) { State.reset with errcode := 3 }) =
      some (3, some ⟨0, 6⟩) := by decide
theorem test_error_beats_unwritten : answerOf (.readh 9) = some ⟨0, 6⟩ := by decide
theorem test_compress_fresh : faultOf (exec .compress State.reset) = some (.unwritten (.w 0)) := by decide
theorem test_reserved_beats_shift :
    field (fun t => (t.errcode, t.responses)) (runCommand ⟨0x00102015, 1, 0, 0⟩ State.reset) = some (5, [⟨0, 5⟩]) := by
  decide

/-! ### The step, the fetch and reset -/

theorem test_fetch_runs_the_word :
    lastResponse (step (State.reset.withFetchWord 96 0x00000001FFFFFFFF00000014)) = some ⟨0, 0⟩ ∧
    field State.errcode (step (State.reset.withFetchWord 32 0x00002015)) = some 3 := by decide
theorem test_idle_step : field id (step State.reset) = some State.reset := by decide
theorem test_reset_step :
    field (fun t => (t.errcode, t.h, t.responses)) (step { abcState false with errcode := 5, input := [.reset] }) =
      some (0, Bank.blank 8, []) := by decide

/-! ### Host functions (L1, L2.6) -/

theorem test_pad_zeros :
    padZeros 0 = 447 ∧ padZeros 24 = 423 ∧ padZeros 447 = 0 ∧ padZeros 448 = 511 ∧ padZeros 1000 = 471 := by decide

set_option maxRecDepth 20000 in
theorem test_parse_abc :
    (match pad (encodeBits [0x61, 0x62, 0x63]) with
      | .ok bits => parseBlocks bits
      | .error _ => []) = [abcBlock] := by decide +kernel

theorem test_to_hex :
    String.ofList (digestHex [0xba7816bf, 0x0000001f]) = "ba7816bf0000001f" := by decide
theorem test_construct :
    construct ['0', 'f'] 8 .hex = .ok ⟨8, 15⟩ ∧ construct ['1', '0'] 4 .bin = .ok ⟨4, 2⟩ ∧
    construct ['0'] 6 .hex = .error (.error .invalidWidth) ∧ construct ['F'] 4 .hex = .error (.refused .digitCase) ∧
    construct ['1', '0'] 4 .hex = .error (.refused .valueTooWide) := by decide
theorem test_assemble_line :
    assembleLine "LOADW 15, 0x18".toList = .ok [⟨0x00000f02, 0x18, 0, 0⟩] ∧
    assembleLine "READH 9".toList = .ok [⟨0x00000906, 0, 0, 0⟩] ∧
    assembleLine ".word 0x00010000".toList = .ok [⟨0x00010000, 0, 0, 0⟩] ∧
    assembleLine "DIGEST".toList = .ok digestCommands := by decide

/-! ### Witnesses: the hypotheses of the statements are met -/

/-- A block that is offered one command. -/
def offered (c : Command) : State := State.reset.offer c

/-- StepRunsDecodedCommand. -/
theorem witness_step_runs :
    (offered (encode (.add 1 2))).fsm = .idle ∧
    (offered (encode (.add 1 2))).input = [.command (encode (.add 1 2))] ∧
    decode (encode (.add 1 2)) = .ok (.add 1 2) := by decide

/-- BlockHoldsStateWithoutACommand: no event, and a command outside IDLE. -/
theorem witness_block_holds :
    State.reset.input = [] ∧
    ({ State.reset with fsm := .ff, input := [.command (encode .nop)] } : State).fsm ≠ .idle := by decide

/-- CommandWordChecksInOrder, and each disjunct of EveryWordSelectsOrRaises: every outcome of the
checks, on both sides of every bound. -/
theorem witness_checks_illegal :
    firstFailingCheck 0x00010000 = some 5 ∧
    firstFailingCheck 0xFFFFFFFF = some 5 ∧
    firstFailingCheck 0x0000000C = some 5 ∧
    firstFailingCheck 0x000000FF = some 5 ∧
    firstFailingCheck 0x00000101 = some 5 ∧
    firstFailingCheck 0x00FF2015 = some 5 ∧
    firstFailingCheck 0x00000110 = some 5 := by decide

theorem witness_checks_out_of_range :
    firstFailingCheck 0x00001002 = some 6 ∧
    firstFailingCheck 0x0000FF02 = some 6 ∧
    firstFailingCheck 0x00000805 = some 6 ∧
    firstFailingCheck 0x00000806 = some 6 ∧
    firstFailingCheck 0x00004007 = some 6 ∧
    firstFailingCheck 0x00000808 = some 6 ∧
    firstFailingCheck 0x00004009 = some 6 ∧
    firstFailingCheck 0x00002015 = some 3 ∧
    firstFailingCheck 0x00002016 = some 3 ∧
    firstFailingCheck 0x00002017 = some 3 ∧
    firstFailingCheck 0x0000FF18 = some 3 := by decide

theorem witness_checks_pass :
    firstFailingCheck 0x00000000 = none ∧
    firstFailingCheck 0x00000F02 = none ∧
    firstFailingCheck 0x00000705 = none ∧
    firstFailingCheck 0x00000706 = none ∧
    firstFailingCheck 0x00003F07 = none ∧
    firstFailingCheck 0x00000708 = none ∧
    firstFailingCheck 0x00003F09 = none ∧
    firstFailingCheck 0x00001F15 = none ∧
    firstFailingCheck 0x00001F18 = none ∧
    firstFailingCheck 0x00000025 = none := by decide

theorem witness_every_word :
    classify (word 0x00000706) = .ok (.readh 7) ∧ classify (word 0x00010706) = .error .illegalCommand ∧
    classify (word 0x00000806) = .error .indexOutOfRange ∧
    classify (word 0x00002018) = .error .invalidShiftAmount := by decide

/-- EncodeRestoresTheWord, UnusedPortsAreIgnored: commands that read no port, one, two and three. -/
theorem witness_ports :
    decode ⟨0x0000000A, 7, 8, 9⟩ = .ok .rdstat ∧ portsRead .rdstat = 0 ∧
    decode ⟨0x00000F02, 7, 8, 9⟩ = .ok (.loadw 15 7) ∧ portsRead (.loadw 15 7) = 1 ∧
    decode ⟨0x00000014, 7, 8, 9⟩ = .ok (.add 7 8) ∧ portsRead (.add 7 8) = 2 ∧
    decode ⟨0x00000021, 7, 8, 9⟩ = .ok (.maj 7 8 9) ∧ portsRead (.maj 7 8 9) = 3 := by decide

/-- The clauses of encodesPlain and encodesIndexed on illegal words. -/
theorem witness_encodings :
    (0x00000110#32).toNat % 256 = 0x10 ∧ (0x00000110#32).toNat ≠ 0x10 ∧
    (0x00010015#32).toNat % 256 = 0x15 ∧ 65536 ≤ (0x00010015#32).toNat := by decide

/-- ShiftsFillWithZeros, RotationsMoveEveryBit: both clauses at the bound. -/
theorem witness_shift_bound : (31#8).toNat < 32 ∧ 32 ≤ (32#8).toNat ∧ (0#8).toNat < 32 := by decide

/-- StatelessCommandsDependOnOperandsAlone: both clauses. -/
theorem witness_stateless :
    isStateless (.rotr 1 31) = true ∧ (Instr.rotr 1 31).wellFormed = true ∧
    isStateless (.rotr 1 32) = true ∧ (Instr.rotr 1 32).wellFormed = false := by decide

/-- ExpandFollowsTheRecurrence: it runs; it stops on W[0] and on W[15]. -/
theorem witness_expand :
    (abcState false).blockWritten ∧
    ((abcWithoutW 0).w.wr[0] = false ∧ ∀ j : Fin 64, j.val < 0 → (abcWithoutW 0).w.wr[j.val] = true) ∧
    (abcWithoutW 15).w.wr[15] = false ∧ ∀ j : Fin 64, j.val < 15 → (abcWithoutW 15).w.wr[j.val] = true := by
  unfold State.blockWritten
  decide

/-- CompressRunsRoundsAndFeedsForward: it runs; it stops on H[0] and on H[7]. -/
theorem witness_compress :
    (abcState false).blockWritten ∧ (abcState false).hashWritten ∧
    ((abcWithoutH 0).blockWritten ∧ (abcWithoutH 0).h.wr[0] = false) ∧
    (abcWithoutH 7).blockWritten ∧ (abcWithoutH 7).h.wr[7] = false ∧
    ∀ j : Fin 8, j.val < 7 → (abcWithoutH 7).h.wr[j.val] = true := by
  unfold State.blockWritten State.hashWritten
  decide

/-- OnlyCompressEmitsTraceRecords: both branches. -/
theorem witness_trace :
    (∃ t, exec .compress (abcState true) = .next t) ∧ (abcState true).cfg.trace = true ∧
    ∃ t, exec .nop (abcState true) = .next t :=
  ⟨runs (by decide), by decide, runs (by decide)⟩

/-- LoadsWriteOneWord, ReadsAnswerTheElement, ReadkAndRdstatAnswer: each index bound from both
sides. -/
theorem witness_index_bounds :
    (15#8).toNat < 16 ∧ 16 ≤ (16#8).toNat ∧ (7#8).toNat < 8 ∧ 8 ≤ (8#8).toNat ∧
    (63#8).toNat < 64 ∧ 64 ≤ (64#8).toNat ∧ 64 ≤ (255#8).toNat := by decide

/-- ReadsAnswerTheElement: written and unwritten elements at the ends of the arrays. -/
theorem witness_reads :
    vState.h.wr[7] = true ∧ vState.v.wr[7] = true ∧ vState.w.wr[15] = true ∧
    State.reset.h.wr[7] = false ∧ State.reset.v.wr[0] = false ∧ State.reset.w.wr[63] = false := by decide

/-- SethEightTimesIsInit. -/
theorem witness_seth :
    let s : State := { State.reset with
      input := (loadHashCommands Config.stdIV.toList).map HostInput.command }
    s.fsm = .idle ∧ s.cfg.ivTable = Config.stdIV ∧ ∃ t, exec .init s = .next t := ⟨rfl, rfl, runs (by decide)⟩

/-- LoadsAndExpandAreIdempotent: each form runs, and an error form too. -/
theorem witness_idempotent :
    (∃ t, exec .init State.reset = .next t) ∧ (∃ t, exec (.loadw 15 1) State.reset = .next t) ∧
    (∃ t, exec (.loadw 16 1) State.reset = .next t) ∧ (∃ t, exec (.seth 7 1) State.reset = .next t) ∧
    ∃ t, exec .expand (abcState false) = .next t := 
  ⟨runs (by decide), runs (by decide), runs (by decide), runs (by decide),
    runs (by decide)⟩

/-- ReadsRepeat: each read runs. -/
theorem witness_reads_repeat :
    (∃ t, exec .rdstat vState = .next t) ∧ (∃ t, exec (.readh 7) vState = .next t) ∧
    (∃ t, exec (.readw 15) vState = .next t) ∧ (∃ t, exec (.readv 7) vState = .next t) ∧
    ∃ t, exec (.readk 63) vState = .next t := 
  ⟨runs (by decide), runs (by decide), runs (by decide), runs (by decide),
    runs (by decide)⟩

/-- StepKeepsCodesLegal, StepKeepsTablesAndIdle: a state with a response and an error, that
steps. -/
theorem witness_step_keeps :
    let s : State := { offered (word 0x00002015) with errcode := 6, responses := [⟨0, 6⟩, ⟨1, 0⟩] }
    s.errcodeLegal ∧ s.responsesLegal ∧ s.fsm = .idle ∧ ∃ t, step s = .next t := by
  refine ⟨by unfold State.errcodeLegal; decide, ?_, rfl, runs (by decide)⟩
  unfold State.responsesLegal
  decide

/-- WrittenFlagsStaySet. -/
theorem witness_written_stays :
    let s : State := { vState with input := [.command (encode .compress)] }
    (∀ rest, s.input ≠ .reset :: rest) ∧ (∃ t, step s = .next t) ∧ s.isWritten (.v 7) = true := by
  refine ⟨fun rest h => ?_, runs (by decide), by decide⟩
  simp at h

/-- OneResponseAndFirstErrorKept: CLRERR, a first error, and a later one. -/
theorem witness_one_response :
    (∃ t, step { offered (encode .clrerr) with errcode := 3 } = .next t) ∧
    (∃ t, step (offered (encode (.readh 9))) = .next t) ∧
    ∃ t, step { offered (encode (.readh 9)) with errcode := 3 } = .next t := 
  ⟨runs (by decide), runs (by decide), runs (by decide)⟩

/-- OnlyNamedCommandsWriteState, OnlyLoadwWritesBlockWords: commands that do write each field. -/
theorem witness_writes :
    field (fun t => decide (t.h ≠ State.reset.h)) (exec .init State.reset) = some true ∧
    field (fun t => decide (t.w.word[15] ≠ State.reset.w.word[15])) (exec (.loadw 15 1) State.reset) = some true ∧
    field (fun t => decide (t.v ≠ (abcState false).v)) (exec .compress (abcState false)) = some true ∧
    field (fun t => decide (t.errcode ≠ State.reset.errcode)) (exec (.shl 1 32) State.reset) = some true := by
  decide +kernel

/-- UnwrittenWordsNeverMatter: two states that differ, in an unwritten word alone. -/
theorem witness_agree :
    let t : State := { State.reset with h := ⟨State.reset.h.word.set 3 5, State.reset.h.wr⟩ }
    State.reset.agree t ∧ State.reset ≠ t := by
  unfold State.agree Bank.agree
  decide

/-- FaultsNameAnUnwrittenElement, and the second clause of ResetStepFromAnyState. -/
theorem witness_fault : step (offered (encode (.readv 7))) = .fault (.unwritten (.v 7)) := rfl

/-- ResetStepFromAnyState: a reset offered in the middle of a walk. -/
theorem witness_reset_step :
    ({ abcState true with fsm := .rnd 9, errcode := 5, input := [.reset, .command (encode .nop)] } : State).input =
      .reset :: [.command (encode .nop)] := rfl

/-- A port state, and the edges the witnesses use. -/
def portIdle (s : State) : PortState := ⟨s, Work.blank, false, none, false, none⟩
def edgeWith (c : Command) : PortIn := ⟨false, true, c, false, false⟩
def resetEdge : PortIn := ⟨true, false, encode .nop, false, false⟩

/-- R251: without `TRACE` the block has no trace outputs; with it, it has. -/
theorem test_trace_outputs :
    ((portIdle (abcState false)).out false).trace = none ∧
    ((portIdle (abcState true)).out false).trace = some ⟨false, 0, 0⟩ := by decide

/-- R152: an edge in EXP(15), which no run reaches, leaves the flag of W[15] false. -/
theorem test_exp_below_16 :
    (portIdle { State.reset with fsm := .exp 15 }).advance.arch.isWritten (.w 15) = false ∧
    (portIdle { State.reset with fsm := .exp 15 }).advance.arch.fsm = .exp 16 := by decide

/-- ResetEdgeAbandonsTheCommand: the edge falls in the middle of a walk. -/
theorem witness_reset_edge :
    resetEdge.rst = true ∧
    ((portIdle { abcState false with fsm := .exp 20 }).out false).cmdReady = false := by decide

/-- HandshakeHoldsTheResponse: not ready; a response waiting, taken and not taken. -/
theorem witness_handshake :
    let p : PortState := { portIdle State.reset with rsp := some ⟨7, 0⟩, rspValid := true }
    (p.out false).cmdReady = false ∧ p.rsp = some ⟨7, 0⟩ ∧ p.rspValid = true ∧
    (edgeWith (encode .nop)).rst = false ∧ (edgeWith (encode .nop)).rspReady = false ∧
    ({ edgeWith (encode .nop) with rspReady := true } : PortIn).rspReady = true := by decide

/-- SignalWalkRefinesTheTransaction: a command of each length of walk. -/
theorem witness_walk :
    (portIdle (abcState true)).arch.fsm = .idle ∧ (portIdle (abcState true)).rsp = none ∧
    (List.replicate 113 (edgeWith (encode .nop))).length = walkEdges (encode .compress) ∧
    (List.replicate 48 (edgeWith (encode .nop))).length = walkEdges (encode .expand) ∧
    ([] : List PortIn).length = walkEdges (encode (.add 1 2)) ∧
    (edgeWith (encode .nop)).stall = false := by decide +kernel

/-- FixedWidthWordLaws: the premises of the four laws, at widths 4 and 64. -/
theorem witness_word_laws :
    (0 < 4 ∧ 4 % 4 = 0 ∧ 15 < 2 ^ 4) ∧ (FixedWord.mk 64 5).legal = true ∧ 63 < (FixedWord.mk 64 5).width ∧
    (FixedWord.mk 8 1).width = (FixedWord.mk 8 255).width ∧ (FixedWord.mk 8 1).width ≤ 8 := by decide

/-- WidthMismatchIsAnError: both clauses. -/
theorem witness_widths :
    (FixedWord.mk 8 1).width ≠ (FixedWord.mk 32 1).width ∧
    (FixedWord.mk 32 1).width = (FixedWord.mk 32 9).width := by decide

/-- PadReachesTheLeastMultiple: a length on each side of the limit. -/
theorem witness_pad :
    (List.replicate 447 true).length < 2 ^ 64 ∧ 2 ^ 64 ≤ (List.replicate (2 ^ 64) true).length := by
  rw [List.length_replicate, List.length_replicate]
  decide

/-- BlocksPackBytesBigEndian. -/
theorem witness_blocks : (List.replicate 128 (0x61 : Byte)).length = 64 * 2 := by rw [List.length_replicate]

/-- HashSequenceChainsBlocks. -/
theorem witness_hash_sequence : (∀ b ∈ [abcBlock, abcBlock], b.length = 16) ∧ State.reset.fsm = .idle := by decide

/-- FullHashIsThePureHash: a length on each side of the limit. -/
theorem witness_full_hash :
    8 * (List.replicate 56 (0x61 : Byte)).length < 2 ^ 64 ∧
    2 ^ 64 ≤ 8 * (List.replicate (2 ^ 61) (0x61 : Byte)).length := by
  rw [List.length_replicate, List.length_replicate]
  decide

/-- DigestHexReadsBack. -/
theorem witness_digest : Config.stdIV.toList.length = 8 := by decide

/-- Parameters of a width and a number of instances, the rest as R6 has them. -/
def paramsOf (width : Int) (nEngines : Nat) : Params :=
  { Params.std nEngines
      ⟨1, 1, 1, 1, 113, 1, 1, 1, 1, 1, 1, 1, 1, 1, 1, 1, 1, 1, 1, 1, 1, 1, 1, 1, 1, 1, 1⟩ .busBridge with
    width := width }

/-- OnlyWidth32IsBuilt: each clause at its bound. -/
theorem witness_build :
    ((paramsOf 0 1).restInScope ∧ (paramsOf 0 1).width ≤ 0) ∧
    ((paramsOf 31 1).restInScope ∧ (paramsOf 31 1).width % 4 ≠ 0) ∧
    ((paramsOf 28 1).restInScope ∧ (paramsOf 28 1).width ≠ 32 ∧ (paramsOf 28 1).width % 4 = 0) ∧
    ((paramsOf 32 1).restInScope ∧ (paramsOf 32 1).width = 32) ∧
    (paramsOf 32 0).fixedValues = true ∧ (paramsOf 32 0).latencies.legal = true ∧
    (paramsOf 32 0).nEngines = 0 := by
  unfold Params.restInScope
  decide

/-- A configuration outside R6: another number of rounds, a latency of 0. -/
theorem test_params_out_of_range :
    (match ({ paramsOf 32 1 with nRounds := 80 } : Params).check with
      | .error .parameterOutsideSpec => true
      | _ => false) = true ∧
    (match ({ paramsOf 32 1 with latencies := { (paramsOf 32 1).latencies with add := 0 } } : Params).check with
      | .error .latencyBelowOne => true
      | _ => false) = true := by decide

/-- EnginesAreIndependent: two instances, one stepping and one faulting. -/
theorem witness_engines :
    (⟨paramsOf 32 2, [.running (offered (encode (.readv 7))), .running (offered (encode .nop))]⟩ : Engines).engine[1]? =
      some (.running (offered (encode .nop))) ∧
    (∃ t, step (offered (encode .nop)) = .next t) ∧
    step (offered (encode (.readv 7))) = .fault (.unwritten (.v 7)) := ⟨rfl, runs (by decide), rfl⟩

/-- AssemblerEmitsTheEncoding: in each form a literal that is one too large for its field. -/
theorem witness_literals :
    (∃ j < 1, 2 ^ (literalBitsOf (.readh 9)).getD j 0 ≤ [256].getD j 0) ∧
    (∃ j < 2, 2 ^ (literalBitsOf (.loadw 1 0)).getD j 0 ≤ [1, 0x100000000].getD j 0) ∧
    (∃ j < 2, 2 ^ (literalBitsOf (.add 1 0)).getD j 0 ≤ [0x100000000, 1].getD j 0) ∧
    (∃ j < 1, 2 ^ (literalBitsOf (.not 1)).getD j 0 ≤ [0x100000000].getD j 0) ∧
    (∃ j < 2, 2 ^ (literalBitsOf (.rotr 1 1)).getD j 0 ≤ [1, 256].getD j 0) ∧
    ∃ j < 3, 2 ^ (literalBitsOf (.ch 1 2 3)).getD j 0 ≤ [1, 2, 0x100000000].getD j 0 := by decide

/-- PseudoCommandsExpandInOrder: a word one too large. -/
theorem witness_raw_word : 2 ^ 32 ≤ 0x100000000 := by decide

end Sys2Proof.Tests
end

/-! ### Proofs: the step -/

namespace Sys2Proof.Machine

open Sys2Proof

/-- R72: in IDLE the command at the head of the channel is accepted and taken off it. -/
theorem step_of_idle_command {s : State} {c : Command} {rest : List HostInput}
    (hidle : s.fsm = .idle) (hnext : s.input = .command c :: rest) :
    step s = runCommand c { s with input := rest } := by
  rw [step_eq, hnext]
  exact if_pos hidle

/-- Settles O1: the step accepts the command, and an accepted command runs what it decodes to. -/
theorem stepRunsDecodedCommand : Obligations.StepRunsDecodedCommand := by
  intro s c rest i hidle hnext hdecode
  rw [step_of_idle_command hidle hnext, runCommand_ok _ hdecode]

end Sys2Proof.Machine

/-! ### Proofs: what a command writes and when it faults (R36, R250) -/

namespace Sys2Proof.Machine

open Sys2Proof

/-- A command that answers a next state was rejected by the decoder, with code 5, or ran. -/
theorem runCommand_next {c : Command} {s t : State} (h : runCommand c s = .next t) :
    t = s.errored 5 ∨ ∃ i, decode c = .ok i ∧ exec i s = .next t := by
  cases hd : decode c with
  | error e =>
    rw [runCommand_error s hd] at h
    exact .inl (Host.Outcome.next.inj h).symm
  | ok i => exact .inr ⟨i, rfl, runCommand_ok s hd ▸ h⟩

/-- A command that faults was accepted by the decoder. -/
theorem runCommand_fault {c : Command} {s : State} {f : Fault} (h : runCommand c s = .fault f) :
    ∃ i, decode c = .ok i ∧ exec i s = .fault f := by
  cases hd : decode c with
  | error e => rw [runCommand_error s hd] at h; cases h
  | ok i => exact ⟨i, rfl, runCommand_ok s hd ▸ h⟩

/-- No command moves the sequencing state, the tables or the events to come. -/
theorem exec_frame {i : Instr} {s t : State} (h : exec i s = .next t) :
    t.fsm = s.fsm ∧ t.cfg = s.cfg ∧ t.input = s.input := by
  rcases exec_cases h with ⟨c, -, rfl, -⟩ | ⟨-, r, rfl⟩ | ⟨-, rfl⟩ | ⟨k, v, hk, -, rfl⟩ |
    ⟨k, v, hk, -, rfl⟩ | ⟨-, -, rfl⟩ | ⟨-, -, -, rfl⟩ | ⟨-, rfl⟩ <;> simp

/-- Settles O33: of the fields each command can leave, those it does not write are as they were, and
an error writes ERRCODE only over 0. -/
theorem onlyNamedCommandsWriteState : Obligations.OnlyNamedCommandsWriteState := by
  intro i s t h
  have hframe := exec_frame h
  rcases exec_cases h with ⟨c, -, rfl, -⟩ | ⟨-, r, rfl⟩ | ⟨rfl, rfl⟩ | ⟨k, v, hk, rfl, rfl⟩ |
    ⟨k, v, hk, rfl, rfl⟩ | ⟨rfl, -, rfl⟩ | ⟨rfl, -, -, rfl⟩ | ⟨rfl, rfl⟩
  · refine ⟨by simp, by simp, by simp, fun hne => .inr ?_, hframe⟩
    by_contra h0
    exact hne (if_neg h0)
  all_goals exact ⟨by simp, by simp, by simp, by simp, hframe⟩

/-- Settles O30: a reset keeps the tables and enters IDLE, and a command moves neither. -/
theorem stepKeepsTablesAndIdle : Obligations.StepKeepsTablesAndIdle := by
  intro s t h
  rcases step_cases h with ⟨-, rfl⟩ | ⟨rest, -, rfl⟩ | ⟨c, rest, -, -, rfl⟩ | ⟨c, rest, -, -, hrun⟩
  · exact ⟨rfl, id⟩
  · exact ⟨rfl, fun _ => rfl⟩
  · exact ⟨rfl, id⟩
  · rcases runCommand_next hrun with rfl | ⟨i, -, hexec⟩
    · exact ⟨rfl, id⟩
    · obtain ⟨hfsm, hcfg, -⟩ := exec_frame hexec
      exact ⟨hcfg, fun hidle => hfsm.trans hidle⟩

/-- Settles O36: a step faults only in a command it ran, and `exec_fault` says in which. -/
theorem faultsNameAnUnwrittenElement : Obligations.FaultsNameAnUnwrittenElement := by
  intro s f h
  obtain ⟨c, rest, hinput, -, hrun⟩ := step_fault h
  obtain ⟨i, hdecode, hexec⟩ := runCommand_fault hrun
  obtain ⟨x, hf, hx, hi⟩ := exec_fault hexec
  refine ⟨x, hf, ?_, c, rest, i, hinput, hdecode, hi⟩
  cases x <;> exact hx

/-! ### Proofs: the written flags (R35) -/

/-- Flags that stay set in each bank stay set in the state. -/
theorem isWritten_mono {s t : State} (hh : ∀ i : Fin 8, s.h.wr[i.val] = true → t.h.wr[i.val] = true)
    (hv : ∀ i : Fin 8, s.v.wr[i.val] = true → t.v.wr[i.val] = true)
    (hw : ∀ i : Fin 64, s.w.wr[i.val] = true → t.w.wr[i.val] = true) (x : Elem)
    (hx : s.isWritten x = true) : t.isWritten x = true := by
  cases x with
  | h i => exact hh i hx
  | v i => exact hv i hx
  | w i => exact hw i hx

/-- No command clears a written flag. -/
theorem exec_isWritten_mono {i : Instr} {s t : State} (h : exec i s = .next t) (x : Elem)
    (hx : s.isWritten x = true) : t.isWritten x = true := by
  rcases exec_cases h with ⟨c, -, rfl, -⟩ | ⟨-, r, rfl⟩ | ⟨-, rfl⟩ | ⟨k, v, hk, -, rfl⟩ |
    ⟨k, v, hk, -, rfl⟩ | ⟨-, -, rfl⟩ | ⟨-, -, -, rfl⟩ | ⟨-, rfl⟩ <;>
  refine isWritten_mono ?_ ?_ ?_ x hx <;> intro j hj <;> simp [write_wr, expand_wr, hj]

/-- Settles O31: a step that is no reset leaves the banks, or runs a command. -/
theorem writtenFlagsStaySet : Obligations.WrittenFlagsStaySet := by
  intro s t hreset h x hx
  rcases step_cases h with ⟨-, rfl⟩ | ⟨rest, hinput, -⟩ | ⟨c, rest, -, -, rfl⟩ |
    ⟨c, rest, -, -, hrun⟩
  · exact hx
  · exact absurd hinput (hreset rest)
  · exact hx
  · rcases runCommand_next hrun with rfl | ⟨i, -, hexec⟩
    · exact isWritten_mono (fun _ => id) (fun _ => id) (fun _ => id) x hx
    · refine exec_isWritten_mono hexec x ?_
      cases x <;> exact hx

/-- No element is written after reset. -/
theorem resetWith_isWritten (cfg : Config) (x : Elem) : (State.resetWith cfg).isWritten x = false := by
  cases x with
  | h i => exact blank_wr i.val i.isLt
  | v i => exact blank_wr i.val i.isLt
  | w i => exact blank_wr i.val i.isLt

/-- Settles O37: the banks are blank, and ERRCODE 0 makes STATUS 0. -/
theorem resetValues : Obligations.ResetValues := by
  intro cfg x
  have hstatus : statusWord 0 = 0 := by decide
  exact ⟨resetWith_isWritten cfg x, rfl, hstatus, rfl, rfl, rfl⟩

/-! ### Proofs: the error codes (R28, R85) -/

/-- A response R85 allows: a legal code, and RESULT 0 under an error. `State.responsesLegal` asks it
of every response. -/
def legalResponse (r : Response) : Prop := r.code ∈ legalErrorCodes ∧ (r.code ≠ 0 → r.result = 0)

/-- With code 0 any RESULT is legal. -/
theorem legal_of_code_zero (x : Word) : legalResponse ⟨x, 0⟩ :=
  ⟨List.mem_cons_self, fun h => absurd rfl h⟩

/-- R86, R237: a command that runs adds one legal response, whose code ERRCODE takes if it was 0;
CLRERR leaves 0 in it. -/
theorem exec_response {i : Instr} {s t : State} (h : exec i s = .next t) :
    ∃ r : Response, legalResponse r ∧ t.responses = s.responses ++ [r] ∧
      t.errcode = if i = .clrerr then 0 else if s.errcode = 0 then r.code else s.errcode := by
  rcases exec_cases h with ⟨c, hc, rfl, hi⟩ | ⟨hi, r, rfl⟩ | ⟨rfl, rfl⟩ | ⟨k, v, hk, rfl, rfl⟩ |
    ⟨k, v, hk, rfl, rfl⟩ | ⟨rfl, -, rfl⟩ | ⟨rfl, -, -, rfl⟩ | ⟨rfl, rfl⟩
  · have hne : i ≠ .clrerr := by rintro rfl; exact hi rfl
    have hlegal : c ∈ legalErrorCodes := by rcases hc with rfl | rfl <;> decide
    exact ⟨⟨0, c⟩, ⟨hlegal, fun _ => rfl⟩, rfl, by simp [hne]⟩
  · have hne : i ≠ .clrerr := by rintro rfl; cases hi
    exact ⟨⟨r, 0⟩, legal_of_code_zero r, rfl, by simp [hne]⟩
  all_goals exact ⟨⟨0, 0⟩, legal_of_code_zero 0, by simp, by simp⟩

/-- The same of an accepted command, which may be IllegalCommand. -/
theorem runCommand_response {c : Command} {s t : State} (h : runCommand c s = .next t) :
    ∃ r : Response, legalResponse r ∧ t.responses = s.responses ++ [r] ∧
      t.errcode =
        if decode c = .ok .clrerr then 0 else if s.errcode = 0 then r.code else s.errcode := by
  cases hd : decode c with
  | error e =>
    rw [runCommand_error s hd] at h
    cases h
    exact ⟨⟨0, 5⟩, ⟨by decide, fun _ => rfl⟩, rfl, by simp⟩
  | ok i =>
    rw [runCommand_ok s hd] at h
    simpa using exec_response h

/-- Settles O29: ERRCODE is 0 and there is no response. -/
theorem resetCodesAreLegal : Obligations.ResetCodesAreLegal :=
  fun _ => ⟨List.mem_cons_self, fun _ hr => absurd hr List.not_mem_nil⟩

/-- Settles O28: a reset makes the codes legal; a command adds a legal response, and ERRCODE becomes
0, that response's code, or what it was. -/
theorem stepKeepsCodesLegal : Obligations.StepKeepsCodesLegal := by
  intro s t ⟨herr, hresp⟩ h
  rcases step_cases h with ⟨-, rfl⟩ | ⟨rest, -, rfl⟩ | ⟨c, rest, -, -, rfl⟩ | ⟨c, rest, -, -, hrun⟩
  · exact ⟨herr, hresp⟩
  · exact resetCodesAreLegal s.cfg
  · exact ⟨herr, hresp⟩
  · obtain ⟨r, hr, hadd, hcode⟩ := runCommand_response hrun
    constructor
    · unfold State.errcodeLegal
      rw [hcode]
      split_ifs
      · exact List.mem_cons_self
      · exact hr.1
      · exact herr
    · intro q hq
      rw [hadd, List.mem_append, List.mem_singleton] at hq
      rcases hq with hq | rfl
      · exact hresp q hq
      · exact hr

end Sys2Proof.Machine

/-! ### Proofs: no step rests on an unwritten word (R35, R250) -/

namespace Sys2Proof.Machine

open Sys2Proof

/-! #### Agreement of banks -/

/-- A bank agrees with itself. -/
theorem Bank.agree.refl {n : Nat} (b : Bank n) : b.agree b := ⟨rfl, fun _ _ => rfl⟩

/-- Writing one element alike keeps agreement. -/
theorem Bank.agree.write {n : Nat} {b c : Bank n} (h : b.agree c) (k : Fin n) (x : Word) :
    (b.write k x).agree (c.write k x) := by
  obtain ⟨hwr, hword⟩ := h
  refine ⟨congrArg (·.set k.val true k.isLt) hwr, fun i hi => ?_⟩
  rw [write_wr] at hi
  rw [write_word, write_word]
  split_ifs with hk
  · rfl
  · exact hword i (by rwa [if_neg hk] at hi)

/-- Banks that agree and are written throughout are equal. -/
theorem Bank.agree.eq_of_written {n : Nat} {b c : Bank n} (h : b.agree c)
    (hw : ∀ i : Fin n, b.wr[i.val] = true) : b = c := by
  obtain ⟨bword, bwr⟩ := b
  obtain ⟨cword, cwr⟩ := c
  obtain ⟨hwr, hword⟩ := h
  exact congrArg₂ Bank.mk (Vector.ext fun i hi => hword ⟨i, hi⟩ (hw ⟨i, hi⟩)) hwr

/-- A schedule step reads only words below the one it writes (R150). -/
theorem schedStep_congr {w u : Vector Word 64} {t : Fin 64} (ht : 16 ≤ t.val)
    (h : ∀ j, (hj : j < t.val) → w[j] = u[j]) (j : Nat) (hj : j < t.val + 1) :
    (schedStep w t)[j] = (schedStep u t)[j] := by
  rw [schedStep_get, schedStep_get]
  split_ifs with hjt
  · rw [h (t.val - 2) (by omega), h (t.val - 7) (by omega), h (t.val - 15) (by omega),
      h (t.val - 16) (by omega)]
  · exact h j (by omega)

/-- So the steps from index `n` up rest on the words below `n` alone. -/
theorem foldl_schedStep_congr {n : Nat} (hlo : 16 ≤ n) (hhi : n ≤ 64) {w u : Vector Word 64}
    (h : ∀ j, (hj : j < n) → w[j] = u[j]) :
    ((List.finRange 64).drop n).foldl schedStep w = ((List.finRange 64).drop n).foldl schedStep u := by
  induction hhi using Nat.decreasingInduction generalizing w u with
  | self => exact Vector.ext h
  | of_succ n hn ih =>
    have hdrop : (List.finRange 64).drop n = ⟨n, hn⟩ :: (List.finRange 64).drop (n + 1) := by
      rw [List.drop_eq_getElem_cons (by simpa using hn), List.getElem_finRange]
      rfl
    rw [hdrop]
    exact ih (by omega) (schedStep_congr (t := ⟨n, hn⟩) hlo h)

/-- Schedules with the same block words have the same expansion. -/
theorem expandWords_congr {w u : Vector Word 64} (h : ∀ j, (hj : j < 16) → w[j] = u[j]) :
    expandWords w = expandWords u := foldl_schedStep_congr (le_refl 16) (by decide) h

/-- Schedule memories that agree, with the block written, expand to the same memory. -/
theorem Bank.agree.expand_eq {b c : Bank 64} (h : b.agree c)
    (hblock : ∀ i : Fin 64, i.val < 16 → b.wr[i.val] = true) : b.expand = c.expand := by
  obtain ⟨hwr, hword⟩ := h
  have hwords : b.expand.word = c.expand.word := by
    rw [expand_word, expand_word]
    exact expandWords_congr fun j hj => hword ⟨j, by omega⟩ (hblock ⟨j, by omega⟩ hj)
  have hflags : b.expand.wr = c.expand.wr :=
    Vector.ext fun j hj => by rw [expand_wr, expand_wr, hwr]
  exact congrArg₂ Bank.mk hwords hflags

/-! #### Agreement of states -/

/-- A state agrees with itself. -/
theorem State.agree.refl (s : State) : s.agree s :=
  ⟨.refl _, .refl _, .refl _, rfl, rfl, rfl, rfl, rfl, rfl⟩

/-- States that agree have the same elements written. -/
theorem State.agree.isWritten_eq {s t : State} (h : s.agree t) (x : Elem) :
    s.isWritten x = t.isWritten x := by
  obtain ⟨⟨hh, -⟩, ⟨hv, -⟩, ⟨hw, -⟩, -⟩ := h
  cases x with
  | h i => exact congrArg (·[i.val]) hh
  | v i => exact congrArg (·[i.val]) hv
  | w i => exact congrArg (·[i.val]) hw

/-- States that agree hold the same word in a written element. -/
theorem State.agree.wordAt_eq {s t : State} (h : s.agree t) {x : Elem}
    (hx : s.isWritten x = true) : s.wordAt x = t.wordAt x := by
  obtain ⟨⟨-, hh⟩, ⟨-, hv⟩, ⟨-, hw⟩, -⟩ := h
  cases x with
  | h i => exact hh i hx
  | v i => exact hv i hx
  | w i => exact hw i hx

/-- States that agree make the same written check. -/
theorem State.agree.firstUnwritten_eq {s t : State} (h : s.agree t) (xs : List Elem) :
    s.firstUnwritten xs = t.firstUnwritten xs := by
  induction xs with
  | nil => rfl
  | cons x xs ih => simp only [State.firstUnwritten, h.isWritten_eq x, ih]

/-- The same response keeps agreement. -/
theorem State.agree.respond {s t : State} (h : s.agree t) (x : Word) (c : Code) :
    (s.respond x c).agree (t.respond x c) := by
  obtain ⟨hh, hv, hw, he, hf, hc, hi, hr, ht⟩ := h
  simp only [State.agree, respond_h, respond_v, respond_w, respond_errcode, respond_fsm,
    respond_cfg, respond_input, respond_responses, respond_trace]
  exact ⟨hh, hv, hw, by rw [he], hf, hc, hi, by rw [hr], ht⟩

/-- Putting banks that agree in H keeps agreement. -/
theorem State.agree.withH {s t : State} (h : s.agree t) {b c : Bank 8} (hbc : b.agree c) :
    { s with h := b }.agree { t with h := c } := by
  obtain ⟨-, hrest⟩ := h
  exact ⟨hbc, hrest⟩

/-- Putting banks that agree in W keeps agreement. -/
theorem State.agree.withW {s t : State} (h : s.agree t) {b c : Bank 64} (hbc : b.agree c) :
    { s with w := b }.agree { t with w := c } := by
  obtain ⟨hh, hv, -, hrest⟩ := h
  exact ⟨hh, hv, hbc, hrest⟩

/-- ERRCODE is 0 in both after CLRERR clears it. -/
theorem State.agree.clearError {s t : State} (h : s.agree t) : s.clearError.agree t.clearError := by
  obtain ⟨hh, hv, hw, -, hrest⟩ := h
  exact ⟨hh, hv, hw, rfl, hrest⟩

/-- The same events to come keep agreement. -/
theorem State.agree.withInput {s t : State} (h : s.agree t) (rest : List HostInput) :
    { s with input := rest }.agree { t with input := rest } := by
  obtain ⟨hh, hv, hw, he, hf, hc, -, hr, ht⟩ := h
  exact ⟨hh, hv, hw, he, hf, hc, rfl, hr, ht⟩

/-- Reset puts the same values in both, and keeps what agrees. -/
theorem State.agree.applyReset_eq {s t : State} (h : s.agree t) : s.applyReset = t.applyReset := by
  obtain ⟨-, -, -, -, -, hc, hi, -, -⟩ := h
  rw [State.applyReset, State.applyReset, hc, hi]

/-- Compressing from states that agree, with W[0..15] and H written, leaves the same state: H and
the expanded schedule are equal, and V is written throughout (R163). -/
theorem State.agree.compressed_eq {s t : State} (h : s.agree t) (hblock : s.blockWritten)
    (hhash : s.hashWritten) : s.compressed = t.compressed := by
  obtain ⟨hh, -, hw, he, hf, hc, hi, hr, ht⟩ := h
  rw [State.compressed, State.compressed, hh.eq_of_written hhash, hw.expand_eq hblock, he, hf, hc,
    hi, hr, ht]

/-! #### Agreement of outcomes -/

/-- Answering with equal words keeps agreement, as outcomes. -/
theorem State.agree.next_respond {s t : State} (h : s.agree t) {x y : Word} (hxy : x = y) :
    outcomesRelated State.agree (.next (s.respond x 0)) (.next (t.respond y 0)) :=
  hxy ▸ h.respond x 0

/-- The index check looks at no state. -/
theorem withIndex_agree {s t : State} (h : s.agree t) {bound : Nat} (i : Idx)
    {f g : Fin bound → Host.Outcome State Fault Refusal}
    (hfg : ∀ j, outcomesRelated State.agree (f j) (g j)) :
    outcomesRelated State.agree (withIndex bound i s f) (withIndex bound i t g) := by
  unfold withIndex
  split
  · exact hfg _
  · exact h.respond 0 _

/-- The check of a shift amount looks at no state. -/
theorem withShift_agree {s t : State} (h : s.agree t) (n : Idx) (f : Nat → Word) :
    outcomesRelated State.agree (withShift n s fun m => .next (s.respond (f m) 0))
      (withShift n t fun m => .next (t.respond (f m) 0)) := by
  unfold withShift
  split
  · exact h.respond _ 0
  · exact h.respond 0 _

/-- Reading out an element answers the same word, which is written, or faults alike. -/
theorem answerElem_agree {s t : State} (h : s.agree t) (x : Elem) :
    outcomesRelated State.agree (answerElem x s) (answerElem x t) := by
  unfold answerElem
  rw [read_eq, read_eq, ← h.isWritten_eq x]
  cases hx : s.isWritten x with
  | true =>
    rw [h.wordAt_eq hx]
    exact h.respond _ 0
  | false => exact rfl

/-- The written check faults alike, or both go on with everything in the list written. -/
theorem withWritten_agree {s t : State} (h : s.agree t) (xs : List Elem)
    {a b : Host.Outcome State Fault Refusal}
    (hab : s.firstUnwritten xs = none → outcomesRelated State.agree a b) :
    outcomesRelated State.agree (withWritten xs s a) (withWritten xs t b) := by
  rw [withWritten_eq, withWritten_eq, ← h.firstUnwritten_eq xs]
  cases hx : s.firstUnwritten xs with
  | some x => exact rfl
  | none => exact hab hx

/-- EXPAND, once its check passes, writes the same W in both. -/
theorem execExpand_agree {s t : State} (h : s.agree t) :
    outcomesRelated State.agree (execExpand s) (execExpand t) := by
  refine withWritten_agree h _ fun hwritten => ?_
  have ⟨_, _, hw, _⟩ := h
  rw [hw.expand_eq (blockWritten_iff.2 hwritten)]
  exact (h.withW (.refl _)).respond 0 0

/-- COMPRESS, once its check passes, leaves the same state from both. -/
theorem execCompress_agree {s t : State} (h : s.agree t) :
    outcomesRelated State.agree (execCompress s) (execCompress t) := by
  refine withWritten_agree h _ fun hwritten => ?_
  obtain ⟨hblock, hhash⟩ := compressWritten_iff.1 hwritten
  rw [h.compressed_eq hblock hhash]
  exact State.agree.refl _

/-- No command rests on an unwritten word: from states that agree, the same stop or states that
agree. -/
theorem exec_agree {s t : State} (h : s.agree t) (i : Instr) :
    outcomesRelated State.agree (exec i s) (exec i t) := by
  have ⟨hh, _, hw, he, _, hc, _⟩ := h
  cases i
  case init => exact (h.withH (hc ▸ .refl _)).next_respond rfl
  case loadw k v =>
    exact withIndex_agree h k fun j => (h.withW (hw.write (blockIndex j) v)).next_respond rfl
  case seth k v => exact withIndex_agree h k fun j => (h.withH (hh.write j v)).next_respond rfl
  case expand => exact execExpand_agree h
  case compress => exact execCompress_agree h
  case readh k => exact withIndex_agree h k fun j => answerElem_agree h _
  case readw k => exact withIndex_agree h k fun j => answerElem_agree h _
  case readv k => exact withIndex_agree h k fun j => answerElem_agree h _
  case readk k => exact withIndex_agree h k fun j => h.next_respond (congrArg (·.kTable[j.val]) hc)
  case rdstat => exact h.next_respond (congrArg statusWord he)
  case clrerr => exact h.clearError.next_respond rfl
  case shl a n => exact withShift_agree h n (shl a)
  case shr a n => exact withShift_agree h n (shr a)
  case rotl a n => exact withShift_agree h n (rotl a)
  case rotr a n => exact withShift_agree h n (rotr a)
  all_goals exact h.next_respond rfl

/-- The decoder looks at no state, so an accepted command keeps agreement. -/
theorem runCommand_agree {s t : State} (h : s.agree t) (c : Command) :
    outcomesRelated State.agree (runCommand c s) (runCommand c t) := by
  cases hd : decode c with
  | ok i =>
    rw [runCommand_ok s hd, runCommand_ok t hd]
    exact exec_agree h i
  | error e =>
    unfold runCommand
    rw [hd]
    exact h.respond 0 _

/-- Settles O35: states that agree have the same event next and the same sequencing state, so both
stay, both are reset, or both run the same command. -/
theorem unwrittenWordsNeverMatter : Obligations.UnwrittenWordsNeverMatter := by
  intro s t h
  have ⟨_, _, _, _, hfsm, _, hinput, _⟩ := h
  rw [step_eq, step_eq, ← hinput]
  split
  · exact h
  · next rest _ =>
    rw [(h.withInput rest).applyReset_eq]
    exact State.agree.refl _
  · next c rest _ =>
    by_cases hidle : s.fsm = .idle
    · rw [if_pos hidle, if_pos (hfsm ▸ hidle)]
      exact runCommand_agree (h.withInput rest) c
    · rw [if_neg hidle, if_neg (hfsm ▸ hidle)]
      exact h

end Sys2Proof.Machine

/-! ### Proofs: a command issued again (R57, R61) -/

namespace Sys2Proof.Machine

open Sys2Proof

/-- R86: neither an accepted command nor a rejected one touches the events to come. -/
theorem runCommand_input {c : Command} {s t : State} (h : runCommand c s = .next t) :
    t.input = s.input := by
  rcases runCommand_next h with rfl | ⟨i, -, hexec⟩
  · rfl
  · obtain ⟨-, -, hinput⟩ := exec_frame hexec
    exact hinput

/-- Settles O32: the command is taken off the channel and run, and `runCommand_response` says what
it answers. -/
theorem oneResponseAndFirstErrorKept : Obligations.OneResponseAndFirstErrorKept := by
  intro s t c rest hidle hnext hstep
  rw [step_of_idle_command hidle hnext] at hstep
  obtain ⟨r, -, hadd, hcode⟩ := runCommand_response hstep
  exact ⟨runCommand_input hstep, r, hadd, hcode⟩

/-! #### Error forms -/

/-- A second error of the same code changes nothing but the responses: ERRCODE holds its first. -/
theorem errored_twice (s : State) (c : Code) :
    { (s.errored c).errored c with responses := (s.errored c).responses } = s.errored c := by
  by_cases h0 : s.errcode = 0
  · simp [State.errored, h0]
  · simp only [State.errored, if_neg h0]

/-- A command with a bad IDX raises the same error from the state its error left. -/
theorem exec_operandError_again {i : Instr} {e : ErrorCode} {s t : State}
    (herr : i.operandError = some e) (h : exec i s = .next t) :
    ∃ c, t = s.errored c ∧ exec i t = .next (t.errored c) := by
  obtain ⟨hs, -⟩ := exec_operandError herr s
  obtain ⟨ht, -⟩ := exec_operandError herr t
  exact ⟨errorNumber e, Host.Outcome.next.inj (h.symm.trans hs), ht⟩

/-- An index that raises no error is below its bound (R79). -/
theorem toNat_lt_of_operandError {i : Instr} {bound : Nat} {k : Idx}
    (huse : i.idxUse = (.index bound, k)) (hok : i.operandError = none) : k.toNat < bound := by
  by_contra hk
  simp [Instr.operandError, huse, hk] at hok

/-! #### Loads and EXPAND -/

/-- INIT copies the table into H (R182). -/
theorem exec_init (s : State) :
    exec .init s = .next ({ s with h := writeAll s.cfg.ivTable }.answered ⟨0, 0⟩) := by
  rw [exec, execInit, respond_zero]

/-- LOADW writes its element below the bound (R183). -/
theorem exec_loadw {k : Idx} (hk : k.toNat < 16) (v : Word) (s : State) :
    exec (.loadw k v) s =
      .next ({ s with w := s.w.write (blockIndex ⟨k.toNat, hk⟩) v }.answered ⟨0, 0⟩) := by
  rw [exec, execLoadw, withIndex_lt hk, respond_zero]

/-- SETH writes its element below the bound (R184). -/
theorem exec_seth {k : Idx} (hk : k.toNat < 8) (v : Word) (s : State) :
    exec (.seth k v) s = .next ({ s with h := s.h.write ⟨k.toNat, hk⟩ v }.answered ⟨0, 0⟩) := by
  rw [exec, execSeth, withIndex_lt hk, respond_zero]

/-- EXPAND writes the schedule once the block is written (R151). -/
theorem exec_expand {s : State} (hblock : s.blockWritten) :
    exec .expand s = .next ({ s with w := s.w.expand }.answered ⟨0, 0⟩) := by
  rw [exec, execExpand, withWritten_eq, blockWritten_iff.1 hblock, respond_zero]

/-- A word written twice in an element is written once. -/
theorem write_write {n : Nat} (b : Bank n) (k : Fin n) (x : Word) :
    (b.write k x).write k x = b.write k x := by
  simp [Bank.write]

/-- Expansion leaves the block's words alone, so a second one computes the same schedule. -/
theorem expand_expand (b : Bank 64) : b.expand.expand = b.expand := by
  have hwords : b.expand.expand.word = b.expand.word := by
    rw [expand_word, expand_word]
    refine expandWords_congr fun j hj => foldl_schedStep_frame _ _ j (by omega) fun t ht => ?_
    have := (mem_schedIndices t).1 ht
    omega
  have hflags : b.expand.expand.wr = b.expand.wr :=
    Vector.ext fun j hj => by simp [expand_wr]
  exact congrArg₂ Bank.mk hwords hflags

/-- Expansion keeps the block written. -/
theorem blockWritten_expand {s : State} (h : s.blockWritten) (r : Response) :
    ({ s with w := s.w.expand }.answered r).blockWritten := fun i hi => by
  rw [answered_w, expand_wr, h i hi, Bool.or_true]

/-- Settles O26: a bad IDX errs again with ERRCODE kept, and else the same element, table or schedule
is written again. -/
theorem loadsAndExpandAreIdempotent : Obligations.LoadsAndExpandAreIdempotent := by
  intro i s t hi h
  cases herr : i.operandError with
  | some e =>
    obtain ⟨c, rfl, hagain⟩ := exec_operandError_again herr h
    exact ⟨_, hagain, errored_twice s c⟩
  | none =>
    rcases exec_legal_cases herr h with ⟨hans, -⟩ | ⟨rfl, rfl⟩ | ⟨k, v, hk, rfl, rfl⟩ |
      ⟨k, v, hk, rfl, rfl⟩ | ⟨rfl, hblock, rfl⟩ | ⟨rfl, -⟩ | ⟨rfl, -⟩
    · rcases hi with rfl | rfl | ⟨k, v, rfl⟩ | ⟨k, v, rfl⟩ <;> cases hans
    · exact ⟨_, exec_init _, rfl⟩
    · refine ⟨_, exec_loadw hk v _, ?_⟩
      simp only [State.answered, write_write]
    · refine ⟨_, exec_seth hk v _, ?_⟩
      simp only [State.answered, write_write]
    · refine ⟨_, exec_expand (blockWritten_expand hblock _), ?_⟩
      simp only [State.answered, expand_expand]
    · simp at hi
    · simp at hi

/-! #### Reads -/

/-- An answer changes no element, so reading one out again answers the same word. -/
theorem answerElem_again {x : Elem} {s t : State} (h : answerElem x s = .next t) :
    ∃ r, t = s.answered r ∧ answerElem x t = .next (t.answered r) := by
  obtain ⟨hx, rfl⟩ := answerElem_next h
  refine ⟨_, rfl, ?_⟩
  rw [answerElem_eq]
  cases x <;> exact if_pos hx

/-- The same of a read by index, for an index below its bound. -/
theorem withIndex_answerElem_again {bound : Nat} {k : Idx} {s t : State} (hk : k.toNat < bound)
    (elem : Fin bound → Elem) (h : (withIndex bound k s fun j => answerElem (elem j) s) = .next t) :
    ∃ r, t = s.answered r ∧
      (withIndex bound k t fun j => answerElem (elem j) t) = .next (t.answered r) := by
  rw [withIndex_lt hk] at h ⊢
  exact answerElem_again h

/-- RDSTAT answers the status word (R189). -/
theorem exec_rdstat (s : State) :
    exec .rdstat s = .next (s.answered ⟨statusWord s.errcode, 0⟩) := by
  rw [exec, execRdstat, respond_zero]

/-- READK answers the constant below the bound (R188). -/
theorem exec_readk {k : Idx} (hk : k.toNat < 64) (s : State) :
    exec (.readk k) s = .next (s.answered ⟨s.cfg.kTable[k.toNat], 0⟩) := by
  rw [exec, execReadk, withIndex_lt hk, respond_zero]

/-- A read with a legal IDX answers, and from the state it left answers the same again. -/
theorem exec_read_again {i : Instr} {s t : State}
    (hi : i = .rdstat ∨ (∃ k, i = .readh k) ∨ (∃ k, i = .readw k) ∨ (∃ k, i = .readv k) ∨
      ∃ k, i = .readk k)
    (hok : i.operandError = none) (h : exec i s = .next t) :
    ∃ r, t = s.answered r ∧ exec i t = .next (t.answered r) := by
  rcases hi with rfl | ⟨k, rfl⟩ | ⟨k, rfl⟩ | ⟨k, rfl⟩ | ⟨k, rfl⟩
  · rw [exec_rdstat] at h ⊢
    cases h
    exact ⟨_, rfl, rfl⟩
  · exact withIndex_answerElem_again (toNat_lt_of_operandError rfl hok) .h h
  · exact withIndex_answerElem_again (toNat_lt_of_operandError rfl hok) .w h
  · exact withIndex_answerElem_again (toNat_lt_of_operandError rfl hok) .v h
  · have hk : k.toNat < 64 := toNat_lt_of_operandError rfl hok
    rw [exec_readk hk] at h ⊢
    cases h
    exact ⟨_, rfl, rfl⟩

/-- Settles O27: a read answers again what it answered, or raises the same error again, which wrote
ERRCODE alone. -/
theorem readsRepeat : Obligations.ReadsRepeat := by
  intro i s t hi h
  cases herr : i.operandError with
  | some e =>
    obtain ⟨c, rfl, hagain⟩ := exec_operandError_again herr h
    refine ⟨⟨0, c⟩, _, rfl, hagain, rfl, rfl, fun h0 => ?_⟩
    obtain rfl : c = 0 := h0
    exact ite_eq_right_iff.2 Eq.symm
  | none =>
    obtain ⟨r, rfl, hagain⟩ := exec_read_again hi herr h
    exact ⟨r, _, rfl, hagain, rfl, rfl, fun _ => rfl⟩

end Sys2Proof.Machine

/-! ### Proofs: engines side by side (R66, R247) -/

namespace Sys2Proof.Machine

open Sys2Proof

/-- A step of an engine that exists puts its next state in its place. -/
theorem stepAt_of_getElem? {e : Engines} {i : Nat} {x : Engine} (h : e.engine[i]? = some x) :
    e.stepAt i = { e with engine := e.engine.set i x.step } := by
  rw [Engines.stepAt, h]

/-- Settles O51: a step replaces one entry of the list of engines, and no other. -/
theorem enginesAreIndependent : Obligations.EnginesAreIndependent := by
  refine ⟨fun e i x hx => ?_, fun s t h => ?_, fun s f h => ?_, fun f => rfl⟩
  · obtain ⟨hi, -⟩ := List.getElem?_eq_some_iff.1 hx
    rw [stepAt_of_getElem? hx]
    exact ⟨List.getElem?_set_self hi, List.length_set, rfl,
      fun j hj => List.getElem?_set_ne hj.symm⟩
  · rw [Engine.step, h]
  · rw [Engine.step, h]

end Sys2Proof.Machine

/-! ### Proofs: bytes into blocks (R53, R211, R215) -/

namespace Sys2Proof.Machine

open Sys2Proof

/-- Dropping whole bytes' bits drops the bytes. -/
theorem encodeBits_drop {bs : List Byte} {k : Nat} (hk : k ≤ bs.length) :
    (encodeBits bs).drop (8 * k) = encodeBits (bs.drop k) := by
  conv_lhs => rw [← List.take_append_drop k bs, encodeBits_append]
  exact List.drop_left' (by simp [hk])

/-- Taking whole bytes' bits takes the bytes. -/
theorem encodeBits_take {bs : List Byte} {k : Nat} (hk : k ≤ bs.length) :
    (encodeBits bs).take (8 * k) = encodeBits (bs.take k) := by
  conv_lhs => rw [← List.take_append_drop k bs, encodeBits_append]
  exact List.take_left' (by simp [hk])

/-- Four bytes from `m` on. -/
theorem take_four_drop {bs : List Byte} {m : Nat} (h : m + 4 ≤ bs.length) :
    (bs.drop m).take 4 =
      [bs.getD m 0, bs.getD (m + 1) 0, bs.getD (m + 2) 0, bs.getD (m + 3) 0] := by
  rw [List.drop_eq_getElem_cons (by omega), List.drop_eq_getElem_cons (by omega),
    List.drop_eq_getElem_cons (by omega), List.drop_eq_getElem_cons (by omega)]
  simp only [List.getElem_eq_getD (fallback := (0 : Byte))]
  rfl

/-- A byte moved up by at most 24 places loses no bit in a word. -/
theorem toNat_setWidth_shiftLeft (x : Byte) {n : Nat} (hn : n ≤ 24) :
    (x.setWidth 32 <<< n).toNat = x.toNat <<< n := by
  have hfits : x.toNat <<< n < 2 ^ 32 := calc
    x.toNat <<< n = x.toNat * 2 ^ n := Nat.shiftLeft_eq ..
    _ < 2 ^ 8 * 2 ^ n := Nat.mul_lt_mul_of_pos_right x.isLt (by positivity)
    _ ≤ 2 ^ 8 * 2 ^ 24 := Nat.mul_le_mul_left _ (Nat.pow_le_pow_right (by decide) hn)
    _ = 2 ^ 32 := rfl
  rw [BitVec.toNat_shiftLeft, BitVec.toNat_setWidth_of_le (by decide), Nat.mod_eq_of_lt hfits]

/-- A number above another that fits below it is their sum. -/
theorem shiftLeft_or_eq_add {low k : Nat} (high : Nat) (h : low < 2 ^ k) :
    high <<< k ||| low = high * 2 ^ k + low := by
  rw [← Nat.shiftLeft_add_eq_or_of_lt h, Nat.shiftLeft_eq]

/-- A byte above `k` bits makes a number of `8 + k` bits. -/
theorem byte_above_lt (x : Byte) {low k : Nat} (h : low < 2 ^ k) :
    x.toNat * 2 ^ k + low < 2 ^ (8 + k) := calc
  x.toNat * 2 ^ k + low < x.toNat * 2 ^ k + 2 ^ k := Nat.add_lt_add_left h _
  _ = (x.toNat + 1) * 2 ^ k := (Nat.succ_mul ..).symm
  _ ≤ 2 ^ 8 * 2 ^ k := Nat.mul_le_mul_right _ x.isLt
  _ = 2 ^ (8 + k) := (pow_add ..).symm

/-- The number four bytes spell, the first most significant (R53). -/
theorem packBytes_toNat (a b c d : Byte) :
    (packBytes a b c d).toNat =
      a.toNat * 2 ^ 24 + (b.toNat * 2 ^ 16 + (c.toNat * 2 ^ 8 + d.toNat)) := by
  have hcd : c.toNat * 2 ^ 8 + d.toNat < 2 ^ 16 := byte_above_lt c d.isLt
  have hbcd : b.toNat * 2 ^ 16 + (c.toNat * 2 ^ 8 + d.toNat) < 2 ^ 24 := byte_above_lt b hcd
  rw [packBytes, BitVec.toNat_or, BitVec.toNat_or, BitVec.toNat_or,
    toNat_setWidth_shiftLeft a (by decide), toNat_setWidth_shiftLeft b (by decide),
    toNat_setWidth_shiftLeft c (by decide), BitVec.toNat_setWidth_of_le (by decide),
    Nat.or_assoc, Nat.or_assoc, shiftLeft_or_eq_add _ d.isLt, shiftLeft_or_eq_add _ hcd,
    shiftLeft_or_eq_add _ hbcd]

/-- The number of a byte's bits followed by others. -/
theorem natOfBits_encodeBits_cons (x : Byte) (xs : List Byte) :
    natOfBits (encodeBits (x :: xs)) =
      x.toNat * 2 ^ (8 * xs.length) + natOfBits (encodeBits xs) := by
  have hsplit : encodeBits (x :: xs) = bitsBE 8 x.toNat ++ encodeBits xs := rfl
  rw [hsplit, natOfBits_append, natOfBits_bitsBE, encodeBits_length, Nat.mod_eq_of_lt x.isLt]

/-- The bits of four bytes spell the packed word (R53, R211). -/
theorem natOfBits_encodeBits_four (a b c d : Byte) :
    natOfBits (encodeBits [a, b, c, d]) = (packBytes a b c d).toNat := by
  rw [packBytes_toNat, natOfBits_encodeBits_cons, natOfBits_encodeBits_cons,
    natOfBits_encodeBits_cons, natOfBits_encodeBits_cons]
  simp [natOfBits, encodeBits]

/-- Word j of block b is the 32 bits from 512b + 32j on (R215). -/
theorem parseBlocks_word {padded : List Bool} {b j : Nat} (hb : b < padded.length / 512)
    (hj : j < 16) :
    (parseBlocks padded)[b]?.bind (fun ws => ws[j]?) =
      some (BitVec.ofNat 32 (natOfBits ((padded.drop (512 * b + 32 * j)).take 32))) := by
  simp [parseBlocks, hb, hj]

/-- Settles O46: word j of block b is the bits of the four bytes from 64b + 4j on. -/
theorem blocksPackBytesBigEndian : Obligations.BlocksPackBytesBigEndian := by
  intro n bytes hlen
  have hblocks : (encodeBits bytes).length / 512 = n := by rw [encodeBits_length]; omega
  refine ⟨by rw [parseBlocks, List.length_map, List.length_range, hblocks], ?_, fun b hb j hj => ?_⟩
  · intro ws hws
    obtain ⟨b, -, rfl⟩ := List.mem_map.1 hws
    rw [List.length_map, List.length_range]
  · have hbits : ((encodeBits bytes).drop (512 * b + 32 * j)).take 32 =
        encodeBits ((bytes.drop (64 * b + 4 * j)).take 4) := by
      rw [show 512 * b + 32 * j = 8 * (64 * b + 4 * j) by omega, encodeBits_drop (by omega),
        show 32 = 8 * 4 from rfl, encodeBits_take (by rw [List.length_drop]; omega)]
    rw [parseBlocks_word (by omega) hj, hbits, take_four_drop (by omega),
      natOfBits_encodeBits_four, BitVec.ofNat_toNat, BitVec.setWidth_eq]

end Sys2Proof.Machine

/-! ### Proofs: decoding and encoding (R73 to R78) -/

namespace Sys2Proof.Machine

open Sys2Proof

/-- R77: the operand words of `i` stand on those ports of `c` that `i` reads. -/
def holdsOperands (c : Command) (i : Instr) : Prop :=
  (1 ≤ portsRead i → c.da = (encode i).da) ∧ (2 ≤ portsRead i → c.db = (encode i).db) ∧
    (3 ≤ portsRead i → c.dc = (encode i).dc)

/-- A word with RSV 0 is the word of its OPC and its IDX. -/
theorem cmd_eq_commandWord {c : Command} (hrsv : c.rsv = 0) : c.cmd = commandWord c.opc c.idx := by
  apply BitVec.eq_of_toNat_eq
  rw [c.cmd_toNat, commandWord_toNat, hrsv]
  simp

/-- R75, R77, R78: under the opcode of `i`, the map answers `i` exactly when the IDX and the ports
that `i` reads are its own. -/
theorem decodeOpcode_iff_of_opcode {c : Command} {i : Instr} (hopc : c.opc = i.opcode) :
    decodeOpcode c = .ok i ↔ c.idx = i.idxUse.2 ∧ holdsOperands c i := by
  unfold decodeOpcode
  rw [hopc]
  cases i <;>
    simp [Instr.opcode, plainCommand_eq_ok, Instr.idxUse, holdsOperands, portsRead, encode,
      Instr.operands]
  -- a shift names its word before its amount
  case shl | shr | rotl | rotr => exact and_comm

/-- R73 to R78: a command decodes to `i` exactly when its word is the encoder's and the ports that
`i` reads hold its operand words. -/
theorem decode_iff {c : Command} {i : Instr} :
    decode c = .ok i ↔ c.cmd = (encode i).cmd ∧ holdsOperands c i := by
  rw [decode_eq_ok]
  constructor
  · rintro ⟨hrsv, h⟩
    have hopc : c.opc = i.opcode := (decodeOpcode_opcode h).symm
    obtain ⟨hidx, hops⟩ := (decodeOpcode_iff_of_opcode hopc).1 h
    refine ⟨?_, hops⟩
    rw [cmd_eq_commandWord hrsv, hopc, hidx]
    rfl
  · rintro ⟨hcmd, hops⟩
    obtain ⟨cmd, da, db, dc⟩ := c
    obtain rfl : cmd = commandWord i.opcode i.idxUse.2 := hcmd
    exact ⟨commandWord_rsv ..,
      (decodeOpcode_iff_of_opcode (commandWord_opc ..)).2 ⟨commandWord_idx .., hops⟩⟩

/-- Settles O5: an encoded command has the encoder's word and its own operands on every port. -/
theorem decodeInvertsEncode : Obligations.DecodeInvertsEncode := fun _ =>
  decode_iff.2 ⟨rfl, fun _ => rfl, fun _ => rfl, fun _ => rfl⟩

/-- Settles O6: the encoder's word is the one a command decodes from. -/
theorem encodeRestoresTheWord : Obligations.EncodeRestoresTheWord := fun _ _ h =>
  (decode_iff.1 h).1.symm

/-- Settles O7: decoding asks for the word and for the ports the command reads, and no more. -/
theorem unusedPortsAreIgnored : Obligations.UnusedPortsAreIgnored := by
  intro c i h
  obtain ⟨hcmd, ha, hb, hc⟩ := decode_iff.1 h
  refine ⟨fun h1 => (ha h1).symm, fun h2 => (hb h2).symm, fun h3 => (hc h3).symm, fun x y z =>
    decode_iff.2 ⟨hcmd, fun h1 => ?_, fun h2 => ?_, fun h3 => ?_⟩⟩
  · exact (if_pos h1).trans (ha h1)
  · exact (if_pos h2).trans (hb h2)
  · exact (if_pos h3).trans (hc h3)

/-- Settles O8: each command is the encoder's, and so it decodes to what was encoded. -/
theorem specEncodingExamples : Obligations.SpecEncodingExamples := by
  intro p hp
  have hencode : encode p.1 = p.2 := by
    revert p
    decide
  exact ⟨hencode, hencode ▸ decodeInvertsEncode p.1⟩

end Sys2Proof.Machine

/-! ### Proofs: the five decode checks (R79, R80, R239) -/

namespace Sys2Proof.Machine

open Sys2Proof

/-- The assigned opcodes of R78, by how their commands use IDX. -/
abbrev assignedOpcodes : List Nat := unusedIdxOpcodes ++ indexBounds.map Prod.fst ++ shiftOpcodes

/-- R79: the checks on the numbers of the word are checks on its fields. -/
theorem firstFailingCheck_eq (c : Command) :
    firstFailingCheck c.cmd =
      if c.rsv.toNat ≠ 0 then some 5
      else if c.opc.toNat ∉ assignedOpcodes then some 5
      else if c.opc.toNat ∈ unusedIdxOpcodes ∧ c.idx.toNat ≠ 0 then some 5
      else if indexBounds.any (fun p => p.1 = c.opc.toNat ∧ p.2 ≤ c.idx.toNat) then some 6
      else if c.opc.toNat ∈ shiftOpcodes ∧ 32 ≤ c.idx.toNat then some 3
      else none := by
  rw [c.rsv_toNat, c.opc_toNat, c.idx_toNat]
  rfl

/-- A bound check, by the failing side and by the passing one. -/
theorem ite_le_eq_map_error {bound n : Nat} (e : ErrorCode) :
    (if bound ≤ n then some (errorNumber e) else none) =
      (if n < bound then none else some e).map errorNumber := by
  by_cases h : n < bound
  · rw [if_pos h, if_neg (Nat.not_le.2 h), Option.map_none]
  · rw [if_neg h, if_pos (Nat.not_lt.1 h), Option.map_some]

/-- R79: on an encoded word the first three checks pass, and the index or the shift check is that
of the command's own IDX. -/
theorem firstFailingCheck_encode (i : Instr) :
    firstFailingCheck (encode i).cmd = i.operandError.map errorNumber := by
  obtain ⟨hrsv, hopc, hidx⟩ : (encode i).rsv = 0 ∧ (encode i).opc = i.opcode ∧
      (encode i).idx = i.idxUse.2 := ⟨commandWord_rsv .., commandWord_opc .., commandWord_idx ..⟩
  rw [firstFailingCheck_eq, hrsv, hopc, hidx]
  cases i <;>
    simp [Instr.opcode, Instr.idxUse, Instr.operandError, assignedOpcodes, unusedIdxOpcodes,
      indexBounds, shiftOpcodes]
  case loadw | seth | readh | readw | readv | readk => exact ite_le_eq_map_error .indexOutOfRange
  case shl | shr | rotl | rotr => exact ite_le_eq_map_error .invalidShiftAmount

/-- R75: a plain command is rejected only for its IDX. -/
theorem plainCommand_eq_error {c : Command} {i : Instr} {e : DecodeError} :
    plainCommand c i = .error e ↔ c.idx ≠ 0 ∧ e = .unusedIndex := by
  unfold plainCommand
  split <;> simp_all [eq_comm]

/-- R79: the decoder rejects a word for one of three reasons. -/
theorem decode_eq_error {c : Command} {e : DecodeError} (h : decode c = .error e) :
    c.rsv ≠ 0 ∨ c.opc.toNat ∉ assignedOpcodes ∨ c.opc.toNat ∈ unusedIdxOpcodes ∧ c.idx ≠ 0 := by
  unfold decode at h
  split at h
  case isFalse hrsv => exact .inl hrsv
  right
  unfold decodeOpcode at h
  split at h
  case h_28 =>
    left
    simp only [BitVec.toNat_eq, BitVec.reduceToNat, imp_false] at *
    simp only [assignedOpcodes, unusedIdxOpcodes, indexBounds, shiftOpcodes, List.map_cons,
      List.map_nil, List.cons_append, List.nil_append, List.mem_cons, List.not_mem_nil, or_false]
    omega
  all_goals simp only [plainCommand_eq_error, reduceCtorEq] at h
  all_goals
    rename_i hopc
    exact .inr ⟨by simp [hopc, unusedIdxOpcodes], h.1⟩

/-- R79: a word the decoder rejects fails one of the first three checks. -/
theorem firstFailingCheck_of_decode_error {c : Command} {e : DecodeError}
    (h : decode c = .error e) : firstFailingCheck c.cmd = some 5 := by
  rw [firstFailingCheck_eq]
  rcases decode_eq_error h with hrsv | hopc | ⟨hopc, hidx⟩
  · have hrsv' : c.rsv.toNat ≠ 0 := fun h0 => hrsv (BitVec.eq_of_toNat_eq h0)
    rw [if_pos hrsv']
  · rw [if_pos hopc, ite_self]
  · have hidx' : c.idx.toNat ≠ 0 := fun h0 => hidx (BitVec.eq_of_toNat_eq h0)
    rw [if_pos (And.intro hopc hidx'), ite_self, ite_self]

/-- Settles O3: a rejected word fails an IllegalCommand check; an accepted one is the encoder's, and
its index or shift check is the one the command makes. -/
theorem commandWordChecksInOrder : Obligations.CommandWordChecksInOrder := by
  intro s c rest hidle hnext
  rw [step_of_idle_command hidle hnext]
  cases hd : decode c with
  | error e =>
    rw [firstFailingCheck_of_decode_error hd]
    exact runCommand_error _ hd
  | ok i =>
    rw [← encodeRestoresTheWord c i hd, firstFailingCheck_encode, runCommand_ok _ hd]
    cases herr : i.operandError with
    | none => exact ⟨i, rfl, by rw [Instr.wellFormed, herr]; rfl, rfl⟩
    | some e => exact (exec_operandError herr _).1

/-! #### No refusal (R80) -/

/-- An index check passes or raises. -/
theorem withIndex_ne_refused {bound : Nat} {k : Idx} {s : State} {r : Refusal}
    {f : Fin bound → Host.Outcome State Fault Refusal} (hf : ∀ j, f j ≠ .refused r) :
    withIndex bound k s f ≠ .refused r := by
  unfold withIndex
  split
  · exact hf _
  · nofun

/-- A shift check passes or raises. -/
theorem withShift_ne_refused {n : Idx} {s : State} {r : Refusal}
    {f : Nat → Host.Outcome State Fault Refusal} (hf : ∀ m, f m ≠ .refused r) :
    withShift n s f ≠ .refused r := by
  unfold withShift
  split
  · exact hf _
  · nofun

/-- Reading an element out answers or faults. -/
theorem answerElem_ne_refused {x : Elem} {s : State} {r : Refusal} :
    answerElem x s ≠ .refused r := by
  rw [answerElem_eq]
  split <;> nofun

/-- The written check goes on or faults. -/
theorem withWritten_ne_refused {xs : List Elem} {s t : State} {r : Refusal} :
    withWritten xs s (.next t) ≠ .refused r := by
  rw [withWritten_eq]
  split <;> nofun

/-- R12, R80: every command has a meaning. -/
theorem exec_ne_refused (i : Instr) (s : State) (r : Refusal) : exec i s ≠ .refused r := by
  cases i
  case expand | compress => exact withWritten_ne_refused
  case readh | readw | readv => exact withIndex_ne_refused fun _ => answerElem_ne_refused
  case loadw | seth | readk =>
    simp only [exec, execLoadw, execSeth, execReadk]
    exact withIndex_ne_refused fun _ => nofun
  case shl | shr | rotl | rotr =>
    simp only [exec, execShl, execShr, execRotl, execRotr]
    exact withShift_ne_refused fun _ => nofun
  all_goals nofun

/-- R12, R80: no step is refused. -/
theorem step_ne_refused (s : State) (r : Refusal) : step s ≠ .refused r := by
  rw [step_eq]
  split
  · nofun
  · nofun
  · split
    · unfold runCommand
      split
      · exact exec_ne_refused _ _ _
      · nofun
    · nofun

/-- Settles O4: the decoder's error is IllegalCommand, and a command it accepts has a legal IDX or
raises the error of its operand form. -/
theorem everyWordSelectsOrRaises : Obligations.EveryWordSelectsOrRaises := by
  refine ⟨fun c => ?_, step_ne_refused⟩
  cases hd : decode c with
  | error e =>
    exact .inr (.inl ⟨by simp [classify, hd], fun s => runCommand_error s hd⟩)
  | ok i =>
    have hrun : ∀ s, runCommand c s = exec i s := fun s => runCommand_ok s hd
    cases herr : i.operandError with
    | none =>
      exact .inl ⟨i, by simp [classify, hd, herr], by rw [Instr.wellFormed, herr]; rfl, hrun⟩
    | some e =>
      have hclass : classify c = .error e := by simp [classify, hd, herr]
      have hraise : ∀ s, runCommand c s = .next (s.errored (errorNumber e)) := fun s =>
        (hrun s).trans (exec_operandError herr s).1
      obtain ⟨-, rfl | rfl⟩ := exec_operandError herr State.reset
      · exact .inr (.inr (.inl ⟨hclass, hraise⟩))
      · exact .inr (.inr (.inr ⟨hclass, hraise⟩))

end Sys2Proof.Machine

/-! ### Proofs: the handshake (R72) -/

namespace Sys2Proof.Machine

open Sys2Proof

/-- R72: what an edge does to a waiting response: `rsp_valid` rises unless stalled, and once it is
1 the response goes when the host takes it. -/
theorem edge_rsp {p : PortState} {i : PortIn} {r : Response} (hr : p.rsp = some r)
    (hrst : i.rst = false) :
    p.edge i = .next
      (if p.rspValid then
        if i.rspReady then { p with rsp := none, rspValid := false, traceOut := none }
        else { p with traceOut := none }
      else { p with rspValid := !i.stall, traceOut := none }) := by
  simp only [PortState.edge, hrst, hr, Bool.false_eq_true, if_false]
  split_ifs <;> rfl

/-- R72: outside IDLE, and while a response waits, an edge does not read the command port. -/
theorem edge_ignores_command {p : PortState} (i : PortIn) (v : Bool) (c : Command)
    (hp : p.rsp = none → p.arch.fsm ≠ .idle) :
    p.edge { i with cmdValid := v, cmd := c } = p.edge i := by
  cases hr : p.rsp with
  | some r => simp only [PortState.edge, hr]
  | none => simp only [PortState.edge, hr, if_neg (hp hr)]

/-- Settles O40: a block that is not ready reads no command, and `edge_rsp` says what becomes of a
waiting response. -/
theorem handshakeHoldsTheResponse : Obligations.HandshakeHoldsTheResponse := by
  refine ⟨cmdReady_iff, fun p i v c hbusy => ?_, fun p i r hr hrst => ⟨_, edge_rsp hr hrst, ?_⟩⟩
  · refine edge_ignores_command i v c fun hr hidle => ?_
    rw [(cmdReady_iff p).2 ⟨hidle, hr⟩] at hbusy
    cases hbusy
  · cases hvalid : p.rspValid with
    | false => simp [hr]
    | true => cases hready : i.rspReady <;> simp [hr]

end Sys2Proof.Machine

/-! ### Proofs: the assembler (R87, R88) -/

namespace Sys2Proof.Machine

open Sys2Proof

/-! #### Literals -/

/-- The number of a word is a literal that fits, and is read as that word. -/
theorem literal_toNat {n : Nat} (x : BitVec n) : literal n x.toNat = .ok x := by
  rw [literal, if_pos x.isLt, BitVec.ofNat_toNat, BitVec.setWidth_eq]

/-- A literal of more bits than its field is refused. -/
theorem literal_tooWide {n v : Nat} (h : 2 ^ n ≤ v) : literal n v = .error .literalTooWide :=
  if_neg (Nat.not_lt.2 h)

/-- The numbers of words are read as those words. -/
theorem wordLiterals_toNat (ws : List Word) : wordLiterals (ws.map BitVec.toNat) = .ok ws := by
  induction ws with
  | nil => rfl
  | cons w ws ih => rw [List.map_cons, wordLiterals, literal_toNat, ih]

/-- A literal is read, or refused as too wide; there is no other refusal. -/
theorem literal_cases (n v : Nat) :
    (∃ x, literal n v = .ok x) ∨ literal n v = .error .literalTooWide := by
  unfold literal
  split
  · exact .inl ⟨_, rfl⟩
  · exact .inr rfl

/-- One word too wide refuses the list. -/
theorem wordLiterals_tooWide {vs : List Nat} (h : ∃ v ∈ vs, 2 ^ 32 ≤ v) :
    wordLiterals vs = .error .literalTooWide := by
  induction vs with
  | nil => simp at h
  | cons v vs ih =>
    rw [wordLiterals]
    rcases literal_cases 32 v with ⟨x, hx⟩ | hx
    · have hfit : ¬ 2 ^ 32 ≤ v := fun hv => by rw [literal_tooWide hv] at hx; cases hx
      obtain ⟨u, hu, hwide⟩ := h
      obtain rfl | hu := List.mem_cons.1 hu
      · exact absurd hwide hfit
      · rw [hx, ih ⟨u, hu, hwide⟩]
    · rw [hx]

/-! #### One command -/

/-- A command from the numbers of an IDX and of words. -/
theorem asmCommand_toNat (opc : Byte) (k : Idx) (ws : List Word) :
    asmCommand opc k.toNat (ws.map BitVec.toNat) =
      .ok ⟨commandWord opc k, ws.getD 0 0, ws.getD 1 0, ws.getD 2 0⟩ := by
  rw [asmCommand, literal_toNat, wordLiterals_toNat]

/-- An IDX or a word too wide refuses the command. -/
theorem asmCommand_tooWide (opc : Byte) {idx : Nat} {ws : List Nat}
    (h : 2 ^ 8 ≤ idx ∨ ∃ v ∈ ws, 2 ^ 32 ≤ v) :
    asmCommand opc idx ws = .error .literalTooWide := by
  rw [asmCommand]
  rcases literal_cases 8 idx with ⟨x, hx⟩ | hx
  · have hfit : ¬ 2 ^ 8 ≤ idx := fun hi => by rw [literal_tooWide hi] at hx; cases hx
    rw [hx, wordLiterals_tooWide (h.resolve_left hfit)]
  · rw [hx]

/-! #### The forms -/

/-- The form in which the assembler takes a command's operands (R87). -/
def formOf : Instr → AsmForm
  | .nop | .init | .expand | .compress | .rdstat | .clrerr => .plain
  | .readh _ | .readw _ | .readv _ | .readk _ => .index
  | .loadw _ _ | .seth _ _ => .indexWord
  | .and _ _ | .or _ _ | .xor _ _ | .add _ _ => .words2
  | .not _ | .bsig0 _ | .bsig1 _ | .ssig0 _ | .ssig1 _ => .words1
  | .shl _ _ | .shr _ _ | .rotl _ _ | .rotr _ _ => .wordShift
  | .ch _ _ _ | .maj _ _ _ => .words3

/-- The widths of a form's operands (R87). -/
def AsmForm.bits : AsmForm → List Nat
  | .plain => []
  | .index => [8]
  | .indexWord => [8, 32]
  | .words2 => [32, 32]
  | .words1 => [32]
  | .wordShift => [32, 8]
  | .words3 => [32, 32, 32]

/-- The fields a command's literals must fit are those of its form. -/
theorem formOf_bits (i : Instr) : (formOf i).bits = literalBitsOf i := by
  cases i <;> rfl

/-- The table's row of each mnemonic: the command's opcode and its form (R78, R87). -/
theorem assembleNamed_mnemonicOf (i : Instr) (ops : List Nat) :
    assembleNamed (mnemonicOf i) ops = single (assembleForm i.opcode (formOf i) ops) := by
  cases i <;> rfl

/-- The operand words of a command on the ports it reads. -/
def portWords (i : Instr) : List Word :=
  [i.operands.1, i.operands.2.1, i.operands.2.2].take (portsRead i)

/-- A form takes the IDX and the operand words of a command from its literals. -/
theorem assembleForm_literalsOf (i : Instr) :
    assembleForm i.opcode (formOf i) (literalsOf i) =
      asmCommand i.opcode i.idxUse.2.toNat ((portWords i).map BitVec.toNat) := by
  cases i <;> rfl

/-- The encoder puts those words on the ports, and 0 on the others. -/
theorem portWords_getD (i : Instr) :
    (portWords i).getD 0 0 = (encode i).da ∧ (portWords i).getD 1 0 = (encode i).db ∧
      (portWords i).getD 2 0 = (encode i).dc := by
  cases i <;> exact ⟨rfl, rfl, rfl⟩

/-- The first operand is too wide for its field, or one of the others. -/
theorem tooWide_cons (bits : Nat) (fields : List Nat) (v : Nat) (vs : List Nat) :
    (∃ j < (v :: vs).length, 2 ^ (bits :: fields).getD j 0 ≤ (v :: vs).getD j 0) ↔
      2 ^ bits ≤ v ∨ ∃ j < vs.length, 2 ^ fields.getD j 0 ≤ vs.getD j 0 :=
  Nat.exists_lt_succ_left

/-- R87: in each form, one operand too wide for its field refuses the line. -/
theorem assembleForm_tooWide (opc : Byte) (f : AsmForm) {ops : List Nat}
    (hlen : ops.length = f.bits.length)
    (hwide : ∃ j < ops.length, 2 ^ f.bits.getD j 0 ≤ ops.getD j 0) :
    assembleForm opc f ops = .error .literalTooWide := by
  cases f with
  | plain =>
    obtain ⟨j, hj, -⟩ := hwide
    rw [hlen] at hj
    cases hj
  | index =>
    obtain ⟨i, rfl⟩ := List.length_eq_one_iff.1 hlen
    rw [AsmForm.bits, tooWide_cons] at hwide
    exact asmCommand_tooWide opc (.inl (by simpa using hwide))
  | indexWord =>
    obtain ⟨i, v, rfl⟩ := List.length_eq_two.1 hlen
    rw [AsmForm.bits, tooWide_cons, tooWide_cons] at hwide
    exact asmCommand_tooWide opc (by simpa using hwide)
  | words2 =>
    obtain ⟨a, b, rfl⟩ := List.length_eq_two.1 hlen
    rw [AsmForm.bits, tooWide_cons, tooWide_cons] at hwide
    exact asmCommand_tooWide opc (.inr (by simpa using hwide))
  | words1 =>
    obtain ⟨a, rfl⟩ := List.length_eq_one_iff.1 hlen
    rw [AsmForm.bits, tooWide_cons] at hwide
    exact asmCommand_tooWide opc (.inr (by simpa using hwide))
  | wordShift =>
    obtain ⟨a, n, rfl⟩ := List.length_eq_two.1 hlen
    rw [AsmForm.bits, tooWide_cons, tooWide_cons] at hwide
    exact asmCommand_tooWide opc (Or.symm (by simpa using hwide))
  | words3 =>
    obtain ⟨x, y, z, rfl⟩ := List.length_eq_three.1 hlen
    rw [AsmForm.bits, tooWide_cons, tooWide_cons, tooWide_cons] at hwide
    exact asmCommand_tooWide opc (.inr (by simpa using hwide))

/-- R87: the form of a command turns its literals into the encoder's command. -/
theorem assembleForm_literalsOf_eq_encode (i : Instr) :
    assembleForm i.opcode (formOf i) (literalsOf i) = .ok (encode i) := by
  obtain ⟨ha, hb, hc⟩ := portWords_getD i
  rw [assembleForm_literalsOf, asmCommand_toNat, ha, hb, hc]
  rfl

/-- Settles O52: a mnemonic names its command's opcode and form, and the form reads the literals
that fit and refuses the others. -/
theorem assemblerEmitsTheEncoding : Obligations.AssemblerEmitsTheEncoding := by
  refine ⟨fun i => ?_, fun i ops hlen hwide => ?_⟩
  · rw [assembleNamed_mnemonicOf, assembleForm_literalsOf_eq_encode]
    rfl
  · rw [← formOf_bits] at hlen hwide
    rw [assembleNamed_mnemonicOf, assembleForm_tooWide _ _ hlen hwide]
    rfl

/-! #### Pseudo-commands (R88) -/

/-- A vector's entries with their indices, by index. -/
theorem map_zipIdx_toList {α β : Type} {n : Nat} (v : Vector α n) (f : α × Nat → β) :
    v.toList.zipIdx.map f = (List.finRange n).map fun j => f (v[j.val], j.val) :=
  List.ext_getElem (by simp) (by simp)

/-- A pseudo-command of `n` words hands them to its expansion. -/
theorem asmWords_toNat {n : Nat} (v : Vector Word n) (k : List Word → List Command) :
    asmWords n (v.toList.map BitVec.toNat) k = .ok (k v.toList) := by
  rw [asmWords, if_pos (by simp), wordLiterals_toNat]

/-- Settles O53: the words given are read as they are, and each expansion lists its commands by
index; ROT and SHR3 are ROTR's and SHR's own form. -/
theorem pseudoCommandsExpandInOrder : Obligations.PseudoCommandsExpandInOrder := by
  refine ⟨fun b => ⟨?_, ?_⟩, fun h => ?_, ?_, fun x n => ⟨?_, ?_, ?_⟩, fun w hw => ?_⟩
  · exact (asmWords_toNat b loadBlockCommands).trans (congrArg _ (map_zipIdx_toList b _))
  · refine (asmWords_toNat b blockCommands).trans ?_
    rw [blockCommands, loadBlockCommands, map_zipIdx_toList]
  · exact (asmWords_toNat h loadHashCommands).trans (congrArg _ (map_zipIdx_toList h _))
  · rfl
  · exact congrArg single (assembleForm_literalsOf_eq_encode (.rotr x n))
  · exact congrArg single (assembleForm_literalsOf_eq_encode (.shr x 3))
  · exact asmWords_toNat #v[x] _
  · show asmWords 1 [w] _ = _
    rw [asmWords, wordLiterals_tooWide ⟨w, by simp, hw⟩]
    rfl

end Sys2Proof.Machine

/-! ### Proofs: which words are a command's (R78, R79) -/

namespace Sys2Proof.Machine

open Sys2Proof

/-- R75, R78: under an opcode whose command does not use IDX, every command has IDX 0. -/
theorem idx_eq_zero_of_unused {i : Instr} (h : i.opcode.toNat ∈ unusedIdxOpcodes) :
    i.idxUse.2 = 0 := by
  cases i
  case loadw | seth | readh | readw | readv | readk | shl | shr | rotl | rotr =>
    simp [Instr.opcode, unusedIdxOpcodes] at h
  all_goals rfl

/-- A word that decodes is the number of its IDX and its opcode. -/
theorem toNat_of_decode {c : Command} {i : Instr} (h : decode c = .ok i) :
    c.cmd.toNat = i.idxUse.2.toNat * 256 + i.opcode.toNat := by
  rw [← encodeRestoresTheWord c i h]
  exact commandWord_toNat _ _

/-- A word no command decodes from is IllegalCommand in every state. -/
theorem runCommand_of_not_decodes {c : Command} (h : ∀ i, decode c ≠ .ok i) (s : State) :
    runCommand c s = .next (s.errored 5) := by
  cases hd : decode c with
  | error e => exact runCommand_error s hd
  | ok i => exact absurd hd (h i)

/-- R73: an encoded word by its number. -/
theorem ofNat_eq_commandWord (opc : Byte) (n : Idx) :
    BitVec.ofNat 32 (n.toNat * 256 + opc.toNat) = commandWord opc n := by
  rw [← commandWord_toNat, BitVec.ofNat_toNat, BitVec.setWidth_eq]

/-- R78, R79: a plain encoding is settled by what the word with IDX 0 decodes to; in any other word
of that opcode the IDX or RSV is not 0. -/
theorem encodesPlain_of_decode {opc : Byte} {build : Word → Word → Word → Instr}
    (hopc : opc.toNat ∈ unusedIdxOpcodes)
    (hdecode : ∀ x y z, decode ⟨commandWord opc 0, x, y, z⟩ = .ok (build x y z)) :
    encodesPlain opc.toNat build := by
  refine fun x y z => ⟨?_, fun w hw hne => runCommand_of_not_decodes fun i hd => ?_⟩
  · have hword : BitVec.ofNat 32 opc.toNat = commandWord opc 0 := by
      simpa using ofNat_eq_commandWord opc 0
    rw [hword, hdecode]
  · have hword : w.toNat = i.idxUse.2.toNat * 256 + i.opcode.toNat := toNat_of_decode hd
    have hlt : i.opcode.toNat < 256 := i.opcode.isLt
    have hopcode : i.opcode.toNat = opc.toNat := by omega
    have hidx : i.idxUse.2.toNat = 0 :=
      congrArg BitVec.toNat (idx_eq_zero_of_unused (hopcode ▸ hopc))
    omega

/-- R78, R79: an indexed encoding is settled by what the encoder's words decode to; a word from
2^16 up has RSV ≠ 0. -/
theorem encodesIndexed_of_decode {opc : Byte} {build : Idx → Word → Word → Word → Instr}
    (hdecode : ∀ n x y z, decode ⟨commandWord opc n, x, y, z⟩ = .ok (build n x y z)) :
    encodesIndexed opc.toNat build := by
  refine fun n x y z => ⟨?_, fun w _ hrsv => runCommand_of_not_decodes fun i hd => ?_⟩
  · rw [ofNat_eq_commandWord, hdecode]
  · have hword : w.toNat = i.idxUse.2.toNat * 256 + i.opcode.toNat := toNat_of_decode hd
    have hidx : i.idxUse.2.toNat < 256 := i.idxUse.2.isLt
    have hlt : i.opcode.toNat < 256 := i.opcode.isLt
    omega

/-- R77: the encoder's word decodes to its command, whatever stands on the ports the command does
not read. -/
theorem decode_unreadPorts (i : Instr) (x y z : Word) :
    decode ⟨(encode i).cmd, if 1 ≤ portsRead i then (encode i).da else x,
      if 2 ≤ portsRead i then (encode i).db else y,
      if 3 ≤ portsRead i then (encode i).dc else z⟩ = .ok i := by
  obtain ⟨-, -, -, hany⟩ := unusedPortsAreIgnored (encode i) i (decodeInvertsEncode i)
  exact hany x y z

end Sys2Proof.Machine

/-! ### Proofs: the ALU and function commands (R100 to R115) -/

namespace Sys2Proof.Machine

open Sys2Proof

/-- The word an ALU or function command answers when its IDX is legal (R101 to R109, R131 to R136):
`exec_stateless`. -/
def statelessResult : Instr → Word
  | .and a b => a &&& b
  | .or a b => a ||| b
  | .xor a b => a ^^^ b
  | .not a => ~~~a
  | .add a b => a + b
  | .shl a n => shl a n.toNat
  | .shr a n => shr a n.toNat
  | .rotl a n => rotl a n.toNat
  | .rotr a n => rotr a n.toNat
  | .ch x y z => chFn x y z
  | .maj x y z => majFn x y z
  | .bsig0 x => bigSigma0 x
  | .bsig1 x => bigSigma1 x
  | .ssig0 x => smallSigma0 x
  | .ssig1 x => smallSigma1 x
  | _ => 0

/-- R113: a shift or rotation is well formed below 32. -/
theorem wellFormed_iff_of_shift {i : Instr} {n : Idx} (huse : i.idxUse = (.shift, n)) :
    i.wellFormed = true ↔ n.toNat < 32 := by
  simp [Instr.wellFormed, Instr.operandError, huse]

/-- R113: from 32 up a shift or rotation is InvalidShiftAmount. -/
theorem exec_of_shift_ge {i : Instr} {n : Idx} (huse : i.idxUse = (.shift, n))
    (hn : 32 ≤ n.toNat) (s : State) : exec i s = .next (s.errored 3) := by
  have herr : i.operandError = some .invalidShiftAmount := by
    simp [Instr.operandError, huse, hn]
  exact (exec_operandError herr s).1

/-- R75: an ALU or function command does not use IDX, or uses it as a shift amount. -/
theorem idxUse_of_stateless {i : Instr} (hi : isStateless i = true) :
    i.idxUse = (.unused, 0) ∨ ∃ n, i.idxUse = (.shift, n) := by
  cases i
  case shl | shr | rotl | rotr => exact .inr ⟨_, rfl⟩
  case nop | init | loadw | expand | compress | seth | readh | readw | readv | readk | rdstat |
      clrerr => cases hi
  all_goals exact .inl rfl

/-- R115: an ALU or function command with a legal IDX answers its word and does nothing else. -/
theorem exec_stateless {i : Instr} (hi : isStateless i = true) (hw : i.wellFormed = true)
    (s : State) : exec i s = .next (s.answered ⟨statelessResult i, 0⟩) := by
  cases i
  case shl | shr | rotl | rotr =>
    have hn := (wellFormed_iff_of_shift rfl).1 hw
    simp only [exec, execShl, execShr, execRotl, execRotr, withShift_lt hn, respond_zero,
      statelessResult]
  case nop | init | loadw | expand | compress | seth | readh | readw | readv | readk | rdstat |
      clrerr => cases hi
  all_goals exact congrArg Host.Outcome.next (respond_zero _ _)

/-- The same of a shift or rotation below 32. -/
theorem exec_of_shift_lt {i : Instr} {n : Idx} (huse : i.idxUse = (.shift, n))
    (hi : isStateless i = true) (hn : n.toNat < 32) (s : State) :
    exec i s = .next (s.answered ⟨statelessResult i, 0⟩) :=
  exec_stateless hi ((wellFormed_iff_of_shift huse).2 hn) s

/-- Settles O13: `statelessResult` reads no state, and the only IDX that can be illegal is a shift
amount. -/
theorem statelessCommandsDependOnOperandsAlone :
    Obligations.StatelessCommandsDependOnOperandsAlone := by
  refine fun i hi => ⟨fun hw => ⟨_, exec_stateless hi hw⟩, fun hw s => ?_⟩
  rcases idxUse_of_stateless hi with huse | ⟨n, huse⟩
  · simp [Instr.wellFormed, Instr.operandError, huse] at hw
  · refine exec_of_shift_ge huse (Nat.not_lt.1 fun hn => ?_) s
    exact Bool.false_ne_true (hw.symm.trans ((wellFormed_iff_of_shift huse).2 hn))

/-- Settles O9: each command answers its word operation, whose bits the library gives. -/
theorem bitwiseCommandsActBitByBit : Obligations.BitwiseCommandsActBitByBit := by
  refine ⟨encodesPlain_of_decode (opc := 0x10) (by decide) fun a b z =>
      decode_unreadPorts (.and a b) 0 0 z,
    encodesPlain_of_decode (opc := 0x11) (by decide) fun a b z =>
      decode_unreadPorts (.or a b) 0 0 z,
    encodesPlain_of_decode (opc := 0x12) (by decide) fun a b z =>
      decode_unreadPorts (.xor a b) 0 0 z,
    encodesPlain_of_decode (opc := 0x13) (by decide) fun a y z =>
      decode_unreadPorts (.not a) 0 y z, fun a b s => ⟨?_, ?_, ?_, ?_⟩⟩
  · exact ⟨a &&& b, exec_stateless rfl rfl s, fun _ _ => BitVec.getLsbD_and⟩
  · exact ⟨a ||| b, exec_stateless rfl rfl s, fun _ _ => BitVec.getLsbD_or⟩
  · exact ⟨a ^^^ b, exec_stateless rfl rfl s, fun _ _ => BitVec.getLsbD_xor⟩
  · exact ⟨~~~a, exec_stateless rfl rfl s, BitVec.toNat_not⟩

/-- R105: what ADD answers. -/
theorem exec_add (a b : Word) (s : State) :
    ∃ r, exec (.add a b) s = .next (s.answered ⟨r, 0⟩) ∧ r.toNat = (a.toNat + b.toNat) % 2 ^ 32 :=
  ⟨a + b, exec_stateless rfl rfl s, BitVec.toNat_add a b⟩

/-- Settles O10: the sum of words is the sum modulo 2^32. -/
theorem addIsModularWithNoFlag : Obligations.AddIsModularWithNoFlag :=
  ⟨encodesPlain_of_decode (opc := 0x14) (by decide) fun a b z =>
      decode_unreadPorts (.add a b) 0 0 z, exec_add⟩

/-- R106: SHL's word as a number. -/
theorem shl_toNat (a : Word) (n : Nat) : (shl a n).toNat = a.toNat * 2 ^ n % 2 ^ 32 := by
  rw [shl, BitVec.toNat_shiftLeft, Nat.shiftLeft_eq]

/-- R107: SHR's word as a number. -/
theorem shr_toNat (a : Word) (n : Nat) : (shr a n).toNat = a.toNat / 2 ^ n := by
  rw [shr, BitVec.toNat_ushiftRight, Nat.shiftRight_eq_div_pow]

/-- Settles O11: below 32 the words are `shl` and `shr`, from 32 up the check raises. -/
theorem shiftsFillWithZeros : Obligations.ShiftsFillWithZeros := by
  refine ⟨encodesIndexed_of_decode (opc := 0x15) fun n a y z =>
      decode_unreadPorts (.shl a n) 0 y z,
    encodesIndexed_of_decode (opc := 0x16) fun n a y z =>
      decode_unreadPorts (.shr a n) 0 y z,
    fun a n s => ⟨fun hn => ⟨?_, ?_⟩, fun hn => ⟨?_, ?_⟩⟩⟩
  · exact ⟨_, exec_of_shift_lt rfl rfl hn s, shl_toNat a _⟩
  · exact ⟨_, exec_of_shift_lt rfl rfl hn s, shr_toNat a _⟩
  · exact exec_of_shift_ge rfl hn s
  · exact exec_of_shift_ge rfl hn s

/-! #### Rotations -/

/-- R108: below 32 the block's rotation is the library's. -/
theorem rotl_eq_rotateLeft (a : Word) {n : Nat} (hn : n < 32) : rotl a n = a.rotateLeft n := by
  rw [BitVec.rotateLeft_def, Nat.mod_eq_of_lt hn, rotl]
  split_ifs with h0
  · simp [h0, BitVec.ushiftRight_eq_zero]
  · rfl

/-- R109: below 32 the block's rotation is the library's. -/
theorem rotr_eq_rotateRight (a : Word) {n : Nat} (hn : n < 32) : rotr a n = a.rotateRight n := by
  rw [BitVec.rotateRight_def, Nat.mod_eq_of_lt hn, rotr]
  split_ifs with h0
  · simp [h0]
  · rfl

/-- A sum of two numbers below w that reaches w passes it once. -/
theorem add_mod_of_wrap {w n i : Nat} (hn : n < w) (hi : i < w) (hwrap : ¬ i + n < w) :
    (i + n) % w = i + n - w := by
  rw [Nat.mod_eq_sub_mod (Nat.not_lt.1 hwrap), Nat.mod_eq_of_lt (by omega)]

/-- R108: bit i goes n places up, round the word. -/
theorem getLsbD_rotateLeft_add_mod {w n i : Nat} (x : BitVec w) (hn : n < w) (hi : i < w) :
    (x.rotateLeft n).getLsbD ((i + n) % w) = x.getLsbD i := by
  rw [BitVec.getLsbD_rotateLeft_of_le hn]
  by_cases hwrap : i + n < w
  · rw [Nat.mod_eq_of_lt hwrap]
    simp [hwrap]
  · have hlow : i + n - w < n := by omega
    have hback : w - n + (i + n - w) = i := by omega
    simp [add_mod_of_wrap hn hi hwrap, hlow, hback]

/-- R109: bit i comes from n places up, round the word. -/
theorem getLsbD_rotateRight_mod {w n i : Nat} (x : BitVec w) (hn : n < w) (hi : i < w) :
    (x.rotateRight n).getLsbD i = x.getLsbD ((i + n) % w) := by
  rw [BitVec.getLsbD_rotateRight_of_lt hn]
  by_cases hwrap : i + n < w
  · have hlow : i < w - n := by omega
    rw [Nat.mod_eq_of_lt hwrap]
    simp [hlow, Nat.add_comm]
  · have hhigh : ¬ i < w - n := by omega
    have hback : i - (w - n) = i + n - w := by omega
    simp [add_mod_of_wrap hn hi hwrap, hhigh, hback, hi]

/-- R114: rotating left undoes rotating right. -/
theorem rotateLeft_rotateRight {w n : Nat} (x : BitVec w) (hn : n < w) :
    (x.rotateRight n).rotateLeft n = x := by
  apply BitVec.eq_of_getLsbD_eq
  intro i hi
  -- bit i of a left rotation comes from w - n places up
  obtain ⟨j, hj, rfl⟩ : ∃ j < w, i = (j + n) % w := by
    refine ⟨(i + (w - n)) % w, Nat.mod_lt _ (by omega), ?_⟩
    rw [Nat.mod_add_mod, show i + (w - n) + n = i + w by omega, Nat.add_mod_right,
      Nat.mod_eq_of_lt hi]
  rw [getLsbD_rotateLeft_add_mod _ hn hj, getLsbD_rotateRight_mod x hn hj]

/-- Settles O12: the block's rotations are the library's, bit by bit. -/
theorem rotationsMoveEveryBit : Obligations.RotationsMoveEveryBit := by
  refine ⟨encodesIndexed_of_decode (opc := 0x17) fun n a y z =>
      decode_unreadPorts (.rotl a n) 0 y z,
    encodesIndexed_of_decode (opc := 0x18) fun n a y z =>
      decode_unreadPorts (.rotr a n) 0 y z,
    fun a n s => ⟨fun hn => ⟨?_, ?_⟩, fun hn => ⟨?_, ?_⟩⟩⟩
  · refine ⟨_, exec_of_shift_lt rfl rfl hn s, fun i hi => ?_⟩
    rw [statelessResult, rotl_eq_rotateLeft a hn, getLsbD_rotateLeft_add_mod a hn hi]
  · refine ⟨_, exec_of_shift_lt rfl rfl hn s, fun i hi => ?_⟩
    rw [statelessResult, rotr_eq_rotateRight a hn, getLsbD_rotateRight_mod a hn hi]
  · exact exec_of_shift_ge rfl hn s
  · exact exec_of_shift_ge rfl hn s

end Sys2Proof.Machine

/-! ### Proofs: words of any width (R110 to R114) -/

namespace Sys2Proof.Machine

open Sys2Proof

/-! #### The generic operations on bit vectors -/

/-- The generic word that holds a bit vector: its width and its number (R7). -/
def FixedWord.ofBitVec {w : Nat} (x : BitVec w) : FixedWord := ⟨w, x.toNat⟩

/-- R7: a legal word holds a bit vector. -/
theorem FixedWord.eq_ofBitVec_of_legal {a : FixedWord} (h : a.legal = true) :
    ∃ (w : Nat) (x : BitVec w), a = .ofBitVec x :=
  ⟨a.width, BitVec.ofNatLT a.value (of_decide_eq_true h), rfl⟩

/-- R111: operands of one width give a word of that width. -/
theorem FixedWord.binary_of_width_eq (op : Nat → Nat → Nat → Nat) {a b : FixedWord}
    (h : a.width = b.width) : FixedWord.binary op a b = .ok ⟨a.width, op a.width a.value b.value⟩ :=
  if_pos h

/-- R111: operands of different widths are WidthMismatch. -/
theorem FixedWord.binary_of_width_ne (op : Nat → Nat → Nat → Nat) {a b : FixedWord}
    (h : a.width ≠ b.width) : FixedWord.binary op a b = .error (.error .widthMismatch) :=
  if_neg h

/-- R113: an amount below the width is applied. -/
theorem FixedWord.shifted_of_lt (f : Nat → Nat → Nat → Nat) {a : FixedWord} {n : Nat}
    (h : n < a.width) : a.shifted f n = .ok ⟨a.width, f a.width a.value n⟩ :=
  if_pos h

/-- R113: an amount from the width up is InvalidShiftAmount. -/
theorem FixedWord.shifted_of_le (f : Nat → Nat → Nat → Nat) {a : FixedWord} {n : Nat}
    (h : a.width ≤ n) : a.shifted f n = .error (.error .invalidShiftAmount) :=
  if_neg (Nat.not_lt.2 h)

/-- Settles O44: each of the four operations is `binary` of its own function. -/
theorem widthMismatchIsAnError : Obligations.WidthMismatchIsAnError := by
  intro f hf a b
  obtain ⟨op, rfl⟩ : ∃ op, f = FixedWord.binary op := by
    simp only [List.mem_cons, List.not_mem_nil, or_false] at hf
    rcases hf with rfl | rfl | rfl | rfl <;> exact ⟨_, rfl⟩
  exact ⟨FixedWord.binary_of_width_ne op, fun h => ⟨_, FixedWord.binary_of_width_eq op h, rfl⟩⟩

section OfBitVec

variable {w n : Nat}

/-- R111: on words that hold bit vectors, `binary` is what its function does to their numbers. -/
theorem FixedWord.binary_ofBitVec {op : Nat → Nat → Nat → Nat} {x y z : BitVec w}
    (h : op w x.toNat y.toNat = z.toNat) :
    FixedWord.binary op (.ofBitVec x) (.ofBitVec y) = .ok (.ofBitVec z) := by
  have hwidth : (ofBitVec x).width = (ofBitVec y).width := rfl
  rw [binary_of_width_eq op hwidth]
  exact congrArg (fun v => Except.ok (FixedWord.mk w v)) h

/-- R113: on a word that holds a bit vector, `shifted` below the width is what its function does to
the number. -/
theorem FixedWord.shifted_ofBitVec {f : Nat → Nat → Nat → Nat} {x z : BitVec w} (hn : n < w)
    (h : f w x.toNat n = z.toNat) :
    FixedWord.shifted f (.ofBitVec x) n = .ok (.ofBitVec z) := by
  rw [shifted_of_lt f hn]
  exact congrArg (fun v => Except.ok (FixedWord.mk w v)) h

/-- R106 at any width. -/
theorem FixedWord.shiftLeft_ofBitVec (x : BitVec w) (hn : n < w) :
    (FixedWord.ofBitVec x).shiftLeft n = .ok (.ofBitVec (x <<< n)) :=
  shifted_ofBitVec hn (by rw [BitVec.toNat_shiftLeft, Nat.shiftLeft_eq])

/-- R107 at any width. -/
theorem FixedWord.shiftRight_ofBitVec (x : BitVec w) (hn : n < w) :
    (FixedWord.ofBitVec x).shiftRight n = .ok (.ofBitVec (x >>> n)) :=
  shifted_ofBitVec hn (by rw [BitVec.toNat_ushiftRight, Nat.shiftRight_eq_div_pow])

/-- R108 at any width: the case n = 0 needs no case of its own on numbers below 2^w. -/
theorem FixedWord.rotateLeft_ofBitVec (x : BitVec w) (hn : n < w) :
    (FixedWord.ofBitVec x).rotateLeft n = .ok (.ofBitVec (x.rotateLeft n)) := by
  refine shifted_ofBitVec hn ?_
  rw [BitVec.toNat_rotateLeft, Nat.mod_eq_of_lt hn, Nat.shiftLeft_eq, Nat.shiftRight_eq_div_pow]
  split_ifs with h0
  · simp [h0, Nat.mod_eq_of_lt x.isLt, Nat.div_eq_of_lt x.isLt]
  · rfl

/-- R109 at any width: the case n = 0 needs no case of its own on numbers below 2^w. -/
theorem FixedWord.rotateRight_ofBitVec (x : BitVec w) (hn : n < w) :
    (FixedWord.ofBitVec x).rotateRight n = .ok (.ofBitVec (x.rotateRight n)) := by
  refine shifted_ofBitVec hn ?_
  rw [BitVec.toNat_rotateRight, Nat.mod_eq_of_lt hn, Nat.shiftLeft_eq, Nat.shiftRight_eq_div_pow]
  split_ifs with h0
  · simp [h0]
  · rfl

end OfBitVec

/-- A shift or rotation command agrees with a generic operation when its word does below 32, and the
operation refuses amounts from the width up, as the command does. -/
theorem shiftAgrees_of {mk : Word → Idx → Instr} {f : Nat → Nat → Nat → Nat}
    (huse : ∀ a n, (mk a n).idxUse = (.shift, n)) (hmk : ∀ a n, isStateless (mk a n) = true)
    (hlt : ∀ (a : Word) (n : Idx), n.toNat < 32 → FixedWord.shifted f (.ofBitVec a) n.toNat =
      .ok (.ofBitVec (statelessResult (mk a n)))) :
    shiftAgrees mk (FixedWord.shifted f) := by
  intro a n s
  by_cases hn : n.toNat < 32
  · exact .inl ⟨_, exec_of_shift_lt (huse a n) (hmk a n) hn s, hlt a n hn⟩
  · have hge : 32 ≤ n.toNat := Nat.not_lt.1 hn
    exact .inr ⟨exec_of_shift_ge (huse a n) hge s, FixedWord.shifted_of_le f hge⟩

/-- Settles O42: a command's word and the generic operation are the same operation of bit
vectors. -/
theorem aluRefinesFixedWidthWord : Obligations.AluRefinesFixedWidthWord := by
  refine ⟨fun a b s => ⟨a &&& b, exec_stateless rfl rfl s, ?_⟩,
    fun a b s => ⟨a ||| b, exec_stateless rfl rfl s, ?_⟩,
    fun a b s => ⟨a ^^^ b, exec_stateless rfl rfl s, ?_⟩,
    fun a b s => ⟨a + b, exec_stateless rfl rfl s, ?_⟩,
    fun a s => ⟨~~~a, exec_stateless rfl rfl s, ?_⟩,
    shiftAgrees_of (fun _ _ => rfl) (fun _ _ => rfl) fun a n hn => ?_,
    shiftAgrees_of (fun _ _ => rfl) (fun _ _ => rfl) fun a n hn => ?_,
    shiftAgrees_of (fun _ _ => rfl) (fun _ _ => rfl) fun a n hn => ?_,
    shiftAgrees_of (fun _ _ => rfl) (fun _ _ => rfl) fun a n hn => ?_⟩
  · exact FixedWord.binary_ofBitVec (BitVec.toNat_and a b).symm
  · exact FixedWord.binary_ofBitVec (BitVec.toNat_or a b).symm
  · exact FixedWord.binary_ofBitVec (BitVec.toNat_xor a b).symm
  · exact FixedWord.binary_ofBitVec (BitVec.toNat_add a b).symm
  · rw [FixedWord.bitwiseNot, BitVec.toNat_not]
  · exact FixedWord.shiftLeft_ofBitVec a hn
  · exact FixedWord.shiftRight_ofBitVec a hn
  · rw [statelessResult, rotl_eq_rotateLeft a hn]
    exact FixedWord.rotateLeft_ofBitVec a hn
  · rw [statelessResult, rotr_eq_rotateRight a hn]
    exact FixedWord.rotateRight_ofBitVec a hn

/-! #### The four laws (R114) -/

/-- R112: reading back hex digits appends the number's lowest digits to the number read so far. -/
theorem readDigits_hexDigits (k u v : Nat) :
    readDigits .hex u (hexDigits k v) = .ok (u * 16 ^ k + v % 16 ^ k) := by
  induction k generalizing v with
  | zero => simp [hexDigits, readDigits, Nat.mod_one]
  | succ k ih =>
    have hdigit : digitValue .hex (hexDigit (v % 16)) = .ok (v % 16) :=
      digitValue_hexDigit _ (Nat.mod_lt _ (by decide))
    have hsplit : v % 16 ^ (k + 1) = v % 16 + 16 * (v / 16 % 16 ^ k) := by
      rw [pow_succ', Nat.mod_mul]
    rw [hexDigits, readDigits_append, ih]
    simp only [readDigits, hdigit, Base.radix, hsplit]
    congr 1
    ring

/-- R110: a positive multiple of 4 is a width. -/
theorem checkWidth_of_legal {w : Nat} (hpos : 0 < w) (hw : w % 4 = 0) :
    checkWidth (w : Int) = .ok w := by
  have hlegal : 0 < (w : Int) ∧ (w : Int) % 4 = 0 := by omega
  rw [checkWidth, if_pos hlegal, Int.toNat_natCast]

/-- R114: a number that fits a legal width makes a word. -/
theorem constructNat_of_lt {w v : Nat} (hpos : 0 < w) (hw : w % 4 = 0) (hv : v < 2 ^ w) :
    constructNat v w = .ok ⟨w, v⟩ := by
  simp only [constructNat, checkWidth_of_legal hpos hw, if_pos hv]

/-- R110, R112, R114: `construct` reads a word back from its own digits. -/
theorem construct_toHex {w v : Nat} (hpos : 0 < w) (hw : w % 4 = 0) (hv : v < 2 ^ w) :
    construct (FixedWord.mk w v).toHex w .hex = .ok ⟨w, v⟩ := by
  have hdvd : 4 ∣ w := Nat.dvd_of_mod_eq_zero hw
  have hpow : 16 ^ (w / 4) = 2 ^ w := by
    rw [show 16 = 2 ^ 4 by rfl, ← pow_mul, Nat.mul_div_cancel' hdvd]
  have hread : readDigits .hex 0 (FixedWord.mk w v).toHex = .ok v := by
    rw [FixedWord.toHex, readDigits_hexDigits, hpow, Nat.mod_eq_of_lt hv, Nat.zero_mul,
      Nat.zero_add]
  have hne : (FixedWord.mk w v).toHex ≠ [] := by
    apply List.ne_nil_of_length_pos
    rw [FixedWord.toHex, hexDigits_length]
    exact Nat.div_pos (Nat.le_of_dvd hpos hdvd) (by decide)
  simp only [construct, checkWidth_of_legal hpos hw, if_neg hne, hread,
    constructNat_of_lt hpos hw hv]

/-- R114 law 3: modular addition commutes. -/
theorem FixedWord.addModular_comm {a b : FixedWord} (h : a.width = b.width) :
    a.addModular b = b.addModular a := by
  rw [addModular, binary_of_width_eq _ h, binary_of_width_eq _ h.symm, h, Nat.add_comm]

/-- R114 law 2, of the commands: ROTL undoes ROTR. -/
theorem exec_rotl_rotr (a : Word) {n : Idx} (hn : n.toNat < 32) (s : State) :
    ∃ r, exec (.rotr a n) s = .next (s.answered ⟨r, 0⟩) ∧
      exec (.rotl r n) s = .next (s.answered ⟨a, 0⟩) := by
  have hback : rotl (rotr a n.toNat) n.toNat = a := by
    rw [rotr_eq_rotateRight a hn, rotl_eq_rotateLeft _ hn, rotateLeft_rotateRight a hn]
  refine ⟨_, exec_of_shift_lt rfl rfl hn s, (exec_of_shift_lt rfl rfl hn s).trans ?_⟩
  rw [statelessResult, statelessResult, hback]

/-- R105: ADD commutes. -/
theorem exec_add_comm (a b : Word) (s : State) : exec (.add a b) s = exec (.add b a) s := by
  rw [exec, exec, execAdd, execAdd, BitVec.add_comm]

/-- Settles O43: the laws of the generic words, then those of the commands. -/
theorem fixedWidthWordLaws : Obligations.FixedWidthWordLaws := by
  refine ⟨fun w v hpos hw hv => ?_, fun a n ha hn => ?_, fun a b h => ?_, fun a n h => ?_,
    fun a b n s => ⟨fun hn => exec_rotl_rotr a hn s, ⟨exec_add_comm a b s, exec_add a b s⟩,
      fun hn => ?_⟩⟩
  · exact ⟨_, _, constructNat_of_lt hpos hw hv, construct_toHex hpos hw hv, rfl⟩
  · obtain ⟨w, x, rfl⟩ := FixedWord.eq_ofBitVec_of_legal ha
    refine ⟨_, FixedWord.rotateRight_ofBitVec x hn, ?_⟩
    have hback := FixedWord.rotateLeft_ofBitVec (x.rotateRight n) hn
    rwa [rotateLeft_rotateRight x hn] at hback
  · exact ⟨FixedWord.addModular_comm h, _, FixedWord.binary_of_width_eq _ h, rfl⟩
  · exact ⟨FixedWord.shifted_of_le _ h, FixedWord.shifted_of_le _ h, FixedWord.shifted_of_le _ h,
      FixedWord.shifted_of_le _ h⟩
  · exact ⟨exec_of_shift_ge rfl hn s, exec_of_shift_ge rfl hn s, exec_of_shift_ge rfl hn s,
      exec_of_shift_ge rfl hn s⟩

end Sys2Proof.Machine

/-! ### Proofs: the logical functions bit by bit (R131 to R136) -/

namespace Sys2Proof.Machine

open Sys2Proof

/-- R109: below 32, bit i of the block's right rotation comes from n places up, round the word. -/
theorem getLsbD_rotr (x : Word) {n i : Nat} (hn : n < 32) (hi : i < 32) :
    (rotr x n).getLsbD i = x.getLsbD ((i + n) % 32) := by
  rw [rotr_eq_rotateRight x hn, getLsbD_rotateRight_mod x hn hi]

/-- R107: bit i of the block's right shift comes from n places up, and is 0 past the word. -/
theorem getLsbD_shr (x : Word) (n i : Nat) :
    (shr x n).getLsbD i = (decide (i + n < 32) && x.getLsbD (i + n)) := by
  rw [shr, BitVec.getLsbD_ushiftRight, Nat.add_comm n i]
  by_cases hin : i + n < 32
  · simp [hin]
  · simp [hin, BitVec.getLsbD_of_ge x _ (Nat.not_lt.1 hin)]

/-- R131: each bit of x chooses between the bits of y and z. -/
theorem getLsbD_chFn (x y z : Word) {i : Nat} (hi : i < 32) :
    (chFn x y z).getLsbD i = if x.getLsbD i then y.getLsbD i else z.getLsbD i := by
  rw [chFn, BitVec.getLsbD_xor, BitVec.getLsbD_and, BitVec.getLsbD_and, BitVec.getLsbD_not]
  cases x.getLsbD i <;> simp [hi]

/-- R132: the exclusive or of the three pairs is 1 exactly when one of the pairs is. -/
theorem getLsbD_majFn (x y z : Word) (i : Nat) :
    (majFn x y z).getLsbD i =
      (x.getLsbD i && y.getLsbD i || x.getLsbD i && z.getLsbD i || y.getLsbD i && z.getLsbD i) := by
  simp only [majFn, BitVec.getLsbD_xor, BitVec.getLsbD_and]
  cases x.getLsbD i
  · simp
  · cases y.getLsbD i <;> simp

/-- R133, R134: a bit of the exclusive or of three rotations, as in Σ0 and Σ1. -/
theorem getLsbD_rotr_xor_rotr_xor_rotr (x : Word) {k m n i : Nat} (hk : k < 32) (hm : m < 32)
    (hn : n < 32) (hi : i < 32) :
    (rotr x k ^^^ rotr x m ^^^ rotr x n).getLsbD i =
      (x.getLsbD ((i + k) % 32) ^^ x.getLsbD ((i + m) % 32) ^^ x.getLsbD ((i + n) % 32)) := by
  rw [BitVec.getLsbD_xor, BitVec.getLsbD_xor, getLsbD_rotr x hk hi, getLsbD_rotr x hm hi,
    getLsbD_rotr x hn hi]

/-- R135, R136: a bit of the exclusive or of two rotations and a shift, as in σ0 and σ1. -/
theorem getLsbD_rotr_xor_rotr_xor_shr (x : Word) {k m i : Nat} (n : Nat) (hk : k < 32)
    (hm : m < 32) (hi : i < 32) :
    (rotr x k ^^^ rotr x m ^^^ shr x n).getLsbD i =
      (x.getLsbD ((i + k) % 32) ^^ x.getLsbD ((i + m) % 32) ^^
        (decide (i + n < 32) && x.getLsbD (i + n))) := by
  rw [BitVec.getLsbD_xor, BitVec.getLsbD_xor, getLsbD_rotr x hk hi, getLsbD_rotr x hm hi,
    getLsbD_shr]

/-- Settles O14: CH answers `chFn` and MAJ `majFn`, whose bits are a choice and a majority. -/
theorem chooseAndMajorityBits : Obligations.ChooseAndMajorityBits := by
  refine ⟨encodesPlain_of_decode (opc := 0x20) (by decide) fun x y z =>
      decode_unreadPorts (.ch x y z) 0 0 0,
    encodesPlain_of_decode (opc := 0x21) (by decide) fun x y z =>
      decode_unreadPorts (.maj x y z) 0 0 0, fun x y z s => ⟨?_, ?_⟩⟩
  · exact ⟨chFn x y z, exec_stateless rfl rfl s, fun _ hi => getLsbD_chFn x y z hi⟩
  · exact ⟨majFn x y z, exec_stateless rfl rfl s, fun i _ => getLsbD_majFn x y z i⟩

/-- Settles O15: the commands answer Σ0 and Σ1, three rotations each. -/
theorem bigSigmaBits : Obligations.BigSigmaBits := by
  refine ⟨encodesPlain_of_decode (opc := 0x22) (by decide) fun x y z =>
      decode_unreadPorts (.bsig0 x) 0 y z,
    encodesPlain_of_decode (opc := 0x23) (by decide) fun x y z =>
      decode_unreadPorts (.bsig1 x) 0 y z, fun x s => ⟨?_, ?_⟩⟩
  · exact ⟨bigSigma0 x, exec_stateless rfl rfl s, fun _ hi =>
      getLsbD_rotr_xor_rotr_xor_rotr x (by decide) (by decide) (by decide) hi⟩
  · exact ⟨bigSigma1 x, exec_stateless rfl rfl s, fun _ hi =>
      getLsbD_rotr_xor_rotr_xor_rotr x (by decide) (by decide) (by decide) hi⟩

/-- Settles O16: the commands answer σ0 and σ1, two rotations and a shift each. -/
theorem smallSigmaBits : Obligations.SmallSigmaBits := by
  refine ⟨encodesPlain_of_decode (opc := 0x24) (by decide) fun x y z =>
      decode_unreadPorts (.ssig0 x) 0 y z,
    encodesPlain_of_decode (opc := 0x25) (by decide) fun x y z =>
      decode_unreadPorts (.ssig1 x) 0 y z, fun x s => ⟨?_, ?_⟩⟩
  · exact ⟨smallSigma0 x, exec_stateless rfl rfl s, fun _ hi =>
      getLsbD_rotr_xor_rotr_xor_shr x 3 (by decide) (by decide) hi⟩
  · exact ⟨smallSigma1 x, exec_stateless rfl rfl s, fun _ hi =>
      getLsbD_rotr_xor_rotr_xor_shr x 10 (by decide) (by decide) hi⟩

end Sys2Proof.Machine

/-! ### Proofs: the message schedule (R150 to R152) -/

namespace Sys2Proof.Machine

open Sys2Proof

/-- An element of an increasing list stands after all the smaller ones and before all the larger. -/
theorem exists_split_of_mem_increasing {ts : List (Fin 64)} {t : Fin 64}
    (hincr : ts.Pairwise (· < ·)) (ht : t ∈ ts) :
    ∃ as bs, ts = as ++ t :: bs ∧ (∀ x ∈ as, x < t) ∧ ∀ x ∈ bs, t < x := by
  obtain ⟨as, bs, rfl⟩ := List.append_of_mem ht
  obtain ⟨-, hbs, has⟩ := List.pairwise_append.1 hincr
  exact ⟨as, bs, rfl, fun x hx => has x hx t List.mem_cons_self, (List.pairwise_cons.1 hbs).1⟩

/-- R152: expansion leaves every block word as it was. -/
theorem expandWords_of_lt (w : Vector Word 64) {j : Nat} (hj : j < 16) :
    (expandWords w)[j] = w[j] := by
  refine foldl_schedStep_frame w _ j (by omega) fun t ht => ?_
  have := (mem_schedIndices t).1 ht
  omega

/-- R150: steps before `t` have made the words the step of `t` reads, and no step after it writes a
word up to `t`, so the recurrence holds of the finished schedule. -/
theorem expandWords_recurrence (w : Vector Word 64) (t : Nat) (hlo : 16 ≤ t) (hhi : t < 64) :
    (expandWords w)[t] = smallSigma1 (expandWords w)[t - 2] + (expandWords w)[t - 7] +
      smallSigma0 (expandWords w)[t - 15] + (expandWords w)[t - 16] := by
  obtain ⟨before, after, hsplit, -, hafter⟩ :=
    exists_split_of_mem_increasing (t := ⟨t, hhi⟩) (List.pairwise_lt_finRange 64).drop
      ((mem_schedIndices _).2 hlo)
  have hupto : ∀ j (hj : j ≤ t),
      (expandWords w)[j] = (schedStep (before.foldl schedStep w) ⟨t, hhi⟩)[j] := fun j hj => by
    have hwords : expandWords w =
        after.foldl schedStep (schedStep (before.foldl schedStep w) ⟨t, hhi⟩) := by
      rw [expandWords, schedIndices, hsplit, List.foldl_append, List.foldl_cons]
    simp only [hwords]
    refine foldl_schedStep_frame _ after j (by omega) fun x hx => ?_
    have : t < x.val := hafter x hx
    omega
  have hbelow : ∀ j (hj : j < t), (expandWords w)[j] = (before.foldl schedStep w)[j] :=
    fun j hj => by rw [hupto j (by omega), schedStep_get, if_neg fun h => hj.ne' h.2]
  rw [hupto t (by omega), schedStep_get, if_pos ⟨hlo, rfl⟩, hbelow (t - 2) (by omega),
    hbelow (t - 7) (by omega), hbelow (t - 15) (by omega), hbelow (t - 16) (by omega)]

/-- R150, R151: the bank EXPAND and COMPRESS leave holds the expansion of the block. -/
theorem isExpansion_expand (b : Bank 64) : isExpansion b.word b.expand.word := by
  rw [expand_word]
  exact ⟨fun _ ht => expandWords_of_lt b.word ht, expandWords_recurrence b.word⟩

/-- R152: expansion changes neither a block word nor its flag. -/
theorem expand_block (b : Bank 64) {j : Nat} (hj : j < 16) :
    b.expand.word[j] = b.word[j] ∧ b.expand.wr[j] = b.wr[j] := by
  refine ⟨?_, ?_⟩
  · simp only [expand_word, expandWords_of_lt b.word hj]
  · rw [expand_wr, decide_eq_false (by omega), Bool.false_or]

/-- R151: after expansion of a written block every word is written. -/
theorem expand_wr_of_blockWritten {s : State} (h : s.blockWritten) (t : Fin 64) :
    s.w.expand.wr[t.val] = true := by
  rw [expand_wr]
  by_cases ht : t.val < 16
  · rw [h t ht, Bool.or_true]
  · rw [decide_eq_true (by omega), Bool.true_or]

/-- R151, R163: the block check finds the unwritten word that has every lower one written. -/
theorem firstUnwritten_blockElems {s : State} {t : Fin 64} (ht : t.val < 16)
    (hun : s.w.wr[t.val] = false) (hbelow : ∀ j : Fin 64, j.val < t.val → s.w.wr[j.val] = true) :
    s.firstUnwritten blockElems = some (.w t) := by
  have hmem : t ∈ (List.finRange 64).take 16 := by
    obtain ⟨i, hi, heq⟩ := List.mem_map.1 (mem_blockElems.2 ⟨t, ht, rfl⟩)
    cases heq
    exact hi
  obtain ⟨as, bs, hsplit, has, -⟩ :=
    exists_split_of_mem_increasing (List.pairwise_lt_finRange 64).take hmem
  refine firstUnwritten_eq_some.2 ⟨as.map .w, bs.map .w, ?_, fun y hy => ?_, hun⟩
  · rw [blockElems, hsplit, List.map_append, List.map_cons]
  · obtain ⟨j, hj, rfl⟩ := List.mem_map.1 hy
    exact hbelow j (has j hj)

/-- Settles O17: the written check passes and the bank is expanded, or it names its first failure. -/
theorem expandFollowsTheRecurrence : Obligations.ExpandFollowsTheRecurrence := by
  refine ⟨encodesPlain_of_decode (opc := 0x03) (by decide) fun x y z =>
      decode_unreadPorts .expand x y z, fun s hblock => ?_, fun s t ht hun hbelow => ?_⟩
  · exact ⟨s.w.expand, exec_expand hblock, isExpansion_expand s.w,
      expand_wr_of_blockWritten hblock⟩
  · rw [exec, execExpand, withWritten_eq, firstUnwritten_blockElems ht hun hbelow]

/-- R152: a command leaves a block word and its flag alone, or it is LOADW of that index. -/
theorem exec_block_or_loadw {i : Instr} {s t : State} (h : exec i s = .next t) {j : Nat}
    (hj : j < 16) :
    (t.w.word[j] = s.w.word[j] ∧ t.w.wr[j] = s.w.wr[j]) ∨ ∃ k v, i = .loadw k v ∧ k.toNat = j := by
  rcases exec_cases h with ⟨c, -, rfl, -⟩ | ⟨-, r, rfl⟩ | ⟨-, rfl⟩ | ⟨k, v, hk, rfl, rfl⟩ |
    ⟨k, v, hk, -, rfl⟩ | ⟨-, -, rfl⟩ | ⟨-, -, -, rfl⟩ | ⟨-, rfl⟩
  · exact .inl ⟨rfl, rfl⟩
  · exact .inl ⟨rfl, rfl⟩
  · exact .inl ⟨rfl, rfl⟩
  · by_cases hkj : k.toNat = j
    · exact .inr ⟨k, v, rfl, hkj⟩
    · exact .inl ⟨(write_word ..).trans (if_neg hkj), (write_wr ..).trans (if_neg hkj)⟩
  · exact .inl ⟨rfl, rfl⟩
  · exact .inl (expand_block s.w hj)
  · exact .inl (expand_block s.w hj)
  · exact .inl ⟨rfl, rfl⟩

/-- Settles O34: any other command leaves the word and its flag as they were. -/
theorem onlyLoadwWritesBlockWords : Obligations.OnlyLoadwWritesBlockWords := by
  intro i s t j h hj hne
  rcases exec_block_or_loadw h hj with ⟨hword, hwr⟩ | hloadw
  · exact absurd hne (by simp [hword, hwr])
  · exact hloadw

end Sys2Proof.Machine

/-! ### Proofs: the compression (R160 to R163) -/

namespace Sys2Proof.Machine

open Sys2Proof

/-! #### The indices in order -/

/-- The indices from `t` up are `t` and those above it. -/
theorem drop_finRange {n : Nat} (t : Fin n) :
    (List.finRange n).drop t.val = t :: (List.finRange n).drop (t.val + 1) := by
  rw [List.drop_eq_getElem_cons (by simp), List.getElem_finRange]
  rfl

/-- The indices up to `t` are those below it and `t`. -/
theorem take_succ_finRange {n : Nat} (t : Fin n) :
    (List.finRange n).take (t.val + 1) = (List.finRange n).take t.val ++ [t] := by
  rw [List.take_add_one, List.getElem?_eq_getElem (by simp), List.getElem_finRange]
  rfl

/-- The first `m` indices are those below `m`. -/
theorem lt_of_mem_take_finRange {n m : Nat} {j : Fin n} (h : j ∈ (List.finRange n).take m) :
    j.val < m := by
  obtain ⟨k, hk, rfl⟩ := List.mem_iff_getElem.1 h
  rw [List.length_take, Nat.lt_min] at hk
  simpa using hk.1

/-! #### The rounds -/

/-- The working values after the first `n` rounds (R161). -/
def workAfter (k w : Vector Word 64) (x : Work) (n : Nat) : Work :=
  ((List.finRange 64).take n).foldl (roundAt k w) x

/-- R161: round `t` takes the values after `t` rounds. -/
theorem workAfter_succ (k w : Vector Word 64) (x : Work) (t : Fin 64) :
    workAfter k w x (t.val + 1) = roundAt k w (workAfter k w x t.val) t := by
  rw [workAfter, take_succ_finRange, List.foldl_append]
  rfl

/-- R161: after all 64 rounds. -/
theorem workAfter_all (k w : Vector Word 64) (x : Work) :
    workAfter k w x 64 = runRounds k w x := by
  rw [workAfter, List.take_of_length_le (by simp)]
  rfl

/-- R160: a round of the model has the register rotation and the two sums of the rule. -/
theorem isRound_roundAt (k w : Vector Word 64) (x : Work) (t : Fin 64) :
    isRound k[t.val] w[t.val] x (roundAt k w x t) :=
  ⟨rfl, rfl, rfl, rfl, rfl, rfl, rfl, rfl⟩

/-- R252: the records of the first `n` rounds, each with the values after its round. -/
theorem roundRecords_take (k w : Vector Word 64) (x : Work) {n : Nat} (hn : n ≤ 64) :
    roundRecords k w x ((List.finRange 64).take n) =
      ((List.finRange 64).take n).map fun t => ⟨t, workAfter k w x (t.val + 1)⟩ := by
  induction n with
  | zero => rfl
  | succ n ih =>
    have hlast : (List.finRange 64).take (n + 1) = (List.finRange 64).take n ++ [⟨n, hn⟩] :=
      take_succ_finRange ⟨n, hn⟩
    rw [hlast, roundRecords_append, ih (by omega), List.map_append, List.map_singleton,
      workAfter_succ k w x ⟨n, hn⟩]
    rfl

/-- R252: the records of a COMPRESS, where the trace port is present. -/
theorem compressRecords_eq (cfg : Config) (w : Vector Word 64) (x : Work) :
    compressRecords cfg w x =
      if cfg.trace then
        (List.finRange 64).map fun t => ⟨t, workAfter cfg.kTable w x (t.val + 1)⟩
      else [] := by
  have hall : (List.finRange 64).take 64 = List.finRange 64 := List.take_of_length_le (by simp)
  have hrecords := roundRecords_take cfg.kTable w x (le_refl 64)
  rw [hall] at hrecords
  rw [compressRecords, hrecords]

/-- R162: the feed-forward adds index by index. -/
theorem feedForward_get (s p : Vector Word 8) (i : Fin 8) :
    (feedForward s p)[i.val] = s[i.val] + p[i.val] := by
  fin_cases i <;> rfl

/-! #### The command -/

/-- R163: COMPRESS runs once the block and the hash are written. -/
theorem exec_compress {s : State} (hblock : s.blockWritten) (hhash : s.hashWritten) :
    exec .compress s = .next (s.compressed.answered ⟨0, 0⟩) := by
  rw [exec, execCompress, withWritten_eq, compressWritten_iff.2 ⟨hblock, hhash⟩, respond_zero]

/-- A check of two lists stops in the first at its first unwritten element. -/
theorem firstUnwritten_append_left {s : State} {xs : List Elem} {x : Elem}
    (h : s.firstUnwritten xs = some x) (ys : List Elem) :
    s.firstUnwritten (xs ++ ys) = some x := by
  obtain ⟨as, bs, rfl, has, hx⟩ := firstUnwritten_eq_some.1 h
  exact firstUnwritten_eq_some.2 ⟨as, bs ++ ys, by simp, has, hx⟩

/-- A check of two lists goes on to the second when the first is written. -/
theorem firstUnwritten_append_right {s : State} {xs : List Elem}
    (h : s.firstUnwritten xs = none) (ys : List Elem) :
    s.firstUnwritten (xs ++ ys) = s.firstUnwritten ys := by
  induction xs with
  | nil => rfl
  | cons x xs ih =>
    have hall := firstUnwritten_eq_none.1 h
    rw [List.cons_append, State.firstUnwritten, if_pos (hall x List.mem_cons_self)]
    exact ih (firstUnwritten_eq_none.2 fun y hy => hall y (List.mem_cons_of_mem x hy))

/-- R163: the hash check finds the unwritten word that has every lower one written. -/
theorem firstUnwritten_hashElems {s : State} {i : Fin 8} (hun : s.h.wr[i.val] = false)
    (hbelow : ∀ j : Fin 8, j.val < i.val → s.h.wr[j.val] = true) :
    s.firstUnwritten hashElems = some (.h i) := by
  refine firstUnwritten_eq_some.2 ⟨((List.finRange 8).take i.val).map .h,
    ((List.finRange 8).drop (i.val + 1)).map .h, ?_, fun y hy => ?_, hun⟩
  · rw [hashElems, ← List.map_cons, ← List.map_append, ← drop_finRange, List.take_append_drop]
  · obtain ⟨j, hj, rfl⟩ := List.mem_map.1 hy
    exact hbelow j (lt_of_mem_take_finRange hj)

/-- Settles O18: the values after `t` rounds are the states of the compression, and the written
check names its first failure, in the block before the hash. -/
theorem compressRunsRoundsAndFeedsForward : Obligations.CompressRunsRoundsAndFeedsForward := by
  refine ⟨encodesPlain_of_decode (opc := 0x04) (by decide) fun x y z =>
      decode_unreadPorts .compress x y z, fun s hblock hhash => ?_,
    fun s t ht hun hbelow => ?_, fun s i hblock hun hbelow => ?_⟩
  · refine ⟨s.w.expand, workAfter s.cfg.kTable s.w.expand.word (toWork s.h.word), _, _, ?_,
      isExpansion_expand s.w, expand_wr_of_blockWritten hblock, rfl, fun t => ?_, rfl,
      feedForward_get s.h.word _⟩
    · rw [exec_compress hblock hhash, State.compressed, compressRecords_eq, ← workAfter_all]
      rfl
    · rw [workAfter_succ]
      exact isRound_roundAt ..
  · have hfirst := firstUnwritten_append_left (firstUnwritten_blockElems ht hun hbelow) hashElems
    rw [exec, execCompress, withWritten_eq, hfirst]
  · rw [exec, execCompress, withWritten_eq,
      firstUnwritten_append_right (blockWritten_iff.1 hblock),
      firstUnwritten_hashElems hun hbelow]

end Sys2Proof.Machine

/-! ### Proofs: the walk over clock edges (R164) -/

namespace Sys2Proof.Machine

open Sys2Proof

/-! #### Edges of a walk -/

/-- An edge at which the walk goes on: neither a reset nor a stall. -/
def unhindered (j : PortIn) : Prop := j.rst = false ∧ j.stall = false

/-- An unhindered edge in a walk advances it. -/
theorem edges_cons_of_walking {p : PortState} {j : PortIn} (js : List PortIn)
    (hwalking : p.arch.fsm ≠ .idle ∧ p.rsp = none) (hj : unhindered j) :
    p.edges (j :: js) = p.advance.edges js := by
  rw [PortState.edges, edge_walk hj.1 hwalking.1 hwalking.2 hj.2]

/-- R32: an index after `t` is the next number. -/
theorem nextIndex_val {t : Fin 64} (ht : t.val < 63) : (nextIndex t).val = t.val + 1 :=
  Nat.mod_eq_of_lt (by omega)

/-- The induction along a phase of the walk. `stage t a` is the block about to take the phase's step
`t` on data `a`; if each edge takes that step and goes to the next stage, and the one of step 63
leaves the phase, then edges from stage `t` on take the steps `t` to 63 in order. -/
theorem edges_phase {α : Type} {stage : Fin 64 → α → PortState} {finish : α → PortState}
    {act : α → Fin 64 → α} (hwalking : ∀ t a, (stage t a).arch.fsm ≠ .idle ∧ (stage t a).rsp = none)
    (hadvance : ∀ t a, (stage t a).advance =
      if t.val < 63 then stage (nextIndex t) (act a t) else finish (act a t))
    {js : List PortIn} (hjs : ∀ j ∈ js, unhindered j) {t : Fin 64} (hlen : 64 - t.val ≤ js.length)
    (a : α) :
    (stage t a).edges js =
      (finish (((List.finRange 64).drop t.val).foldl act a)).edges (js.drop (64 - t.val)) := by
  induction js generalizing t a with
  | nil =>
    rw [List.length_nil] at hlen
    omega
  | cons j js ih =>
    have hrest : (j :: js).drop (64 - t.val) = js.drop (64 - (t.val + 1)) := by
      rw [show 64 - t.val = 64 - (t.val + 1) + 1 by omega, List.drop_succ_cons]
    rw [edges_cons_of_walking js (hwalking t a) (hjs j List.mem_cons_self), hadvance,
      drop_finRange, List.foldl_cons, hrest]
    split
    case isTrue ht =>
      rw [List.length_cons] at hlen
      rw [ih (fun j hj => hjs j (List.mem_cons_of_mem _ hj))
        (by rw [nextIndex_val ht]; omega), nextIndex_val ht]
    case isFalse ht =>
      have hlast : t.val + 1 = 64 := by omega
      rw [hlast]
      rfl

/-! #### The schedule phase -/

/-- The block about to take schedule step `t`, with the schedule memory `b` so far. -/
def PortState.expStage (p : PortState) (t : Fin 64) (b : Bank 64) : PortState :=
  { p with arch := { p.arch with w := b, fsm := .exp t }, traceOut := none }

/-- The block when the schedule memory is `b` after EXP(63): a COMPRESS starts its rounds, an EXPAND
completes. -/
def PortState.expDone (p : PortState) (b : Bank 64) : PortState :=
  if p.compressing then
    { p with
      arch := { p.arch with w := b, fsm := .rnd 0 }, work := toWork p.arch.h.word, traceOut := none }
  else p.complete ({ p.arch with w := b }.respond 0 0) false

/-- Completing a command sets the sequencing state, whatever it was. -/
theorem complete_respond_fsm (p : PortState) (s : State) (f : Fsm) (stall : Bool) :
    p.complete ({ s with fsm := f }.respond 0 0) stall = p.complete (s.respond 0 0) stall := by
  rw [respond_zero, respond_zero]
  rfl

/-- R164: an edge in EXP(t) takes schedule step `t`. -/
theorem advance_expStage (p : PortState) (t : Fin 64) (b : Bank 64) :
    (p.expStage t b).advance =
      if t.val < 63 then p.expStage (nextIndex t) (b.schedStep t)
      else p.expDone (b.schedStep t) := by
  rw [PortState.expDone, ← complete_respond_fsm _ _ (.exp t)]
  rfl

/-- R164: from EXP(16) the schedule memory is expanded. -/
theorem edges_expStage {p : PortState} (hr : p.rsp = none) {js : List PortIn}
    (hjs : ∀ j ∈ js, unhindered j) (hlen : 48 ≤ js.length) (b : Bank 64) :
    (p.expStage 16 b).edges js = (p.expDone b.expand).edges (js.drop 48) :=
  edges_phase (stage := p.expStage) (t := 16) (fun _ _ => ⟨nofun, hr⟩) (advance_expStage p) hjs
    hlen b

/-! #### The rounds -/

/-- What the rounds have left so far: the working values, the trace, and this cycle's record. -/
structure RoundsSoFar where
  work : Work
  trace : List TraceRecord
  out : Option TraceRecord

/-- Round `t` at the signals (R161, R252). -/
def RoundsSoFar.next (cfg : Config) (w : Vector Word 64) (a : RoundsSoFar) (t : Fin 64) :
    RoundsSoFar :=
  let x := roundAt cfg.kTable w a.work t
  let records := if cfg.trace then [⟨t, x⟩] else []
  ⟨x, a.trace ++ records, records.head?⟩

/-- Rounds at the signals leave the working values of the rounds and append their records. -/
theorem foldl_next (cfg : Config) (w : Vector Word 64) (ts : List (Fin 64)) (a : RoundsSoFar) :
    (ts.foldl (RoundsSoFar.next cfg w) a).work = ts.foldl (roundAt cfg.kTable w) a.work ∧
    (ts.foldl (RoundsSoFar.next cfg w) a).trace =
      a.trace ++ if cfg.trace then roundRecords cfg.kTable w a.work ts else [] := by
  induction ts generalizing a with
  | nil => simp [roundRecords]
  | cons t ts ih =>
    obtain ⟨hwork, htrace⟩ := ih (a.next cfg w t)
    refine ⟨hwork, htrace.trans ?_⟩
    cases h : cfg.trace <;> simp [RoundsSoFar.next, roundRecords, h]

/-- The block in sequencing state `f` with what the rounds have left so far. -/
def PortState.withRounds (p : PortState) (f : Fsm) (a : RoundsSoFar) : PortState :=
  { p with
    arch := { p.arch with fsm := f, trace := a.trace }, work := a.work, traceOut := a.out }

/-- R164: an edge in RND(t) runs round `t`. -/
theorem advance_rnd (p : PortState) (t : Fin 64) (a : RoundsSoFar) :
    (p.withRounds (.rnd t) a).advance =
      if t.val < 63 then
        p.withRounds (.rnd (nextIndex t)) (a.next p.arch.cfg p.arch.w.word t)
      else p.withRounds .ff (a.next p.arch.cfg p.arch.w.word t) :=
  apply_ite (p.withRounds · (a.next p.arch.cfg p.arch.w.word t)) ..

/-- R164: from RND(0) the 64 rounds are run. -/
theorem edges_rnd {p : PortState} (hr : p.rsp = none) {js : List PortIn}
    (hjs : ∀ j ∈ js, unhindered j) (hlen : 64 ≤ js.length) (a : RoundsSoFar) :
    (p.withRounds (.rnd 0) a).edges js =
      (p.withRounds .ff ((List.finRange 64).foldl (RoundsSoFar.next p.arch.cfg p.arch.w.word)
        a)).edges (js.drop 64) :=
  edges_phase (stage := fun t => p.withRounds (.rnd t)) (finish := p.withRounds .ff) (t := 0)
    (fun _ _ => ⟨nofun, hr⟩) (advance_rnd p) hjs hlen a

/-! #### The feed-forward -/

/-- The state the feed-forward leaves after the rounds, before its response (R162, R163). -/
def State.fedForward (s : State) (x : Work) (trace : List TraceRecord) : State :=
  { s with
    v := writeAll (ofWork x), h := writeAll (feedForward s.h.word (ofWork x)), trace := trace }

/-- R162, R164: an edge in FF feeds forward and completes the command. -/
theorem advance_ff (p : PortState) (a : RoundsSoFar) :
    (p.withRounds .ff a).advance =
      (p.withRounds .ff a).complete ((p.arch.fedForward a.work a.trace).respond 0 0) false :=
  complete_respond_fsm _ (p.arch.fedForward a.work a.trace) .ff false

/-- R161 to R164: from RND(0) the 64 rounds are run, and their values fed forward. -/
theorem edges_rounds {p : PortState} (hr : p.rsp = none) {js : List PortIn}
    (hjs : ∀ j ∈ js, unhindered j) (hlen : js.length = 65) (a : RoundsSoFar) :
    ∃ q : PortState, (p.withRounds (.rnd 0) a).edges js =
      .next (q.complete ((p.arch.fedForward (runRounds p.arch.cfg.kTable p.arch.w.word a.work)
        (a.trace ++ compressRecords p.arch.cfg p.arch.w.word a.work)).respond 0 0) false) := by
  obtain ⟨j, hj⟩ : ∃ j, js.drop 64 = [j] := List.length_eq_one_iff.1 (by simp [hlen])
  have hfree : unhindered j := hjs j (List.mem_of_mem_drop (hj ▸ List.mem_cons_self))
  obtain ⟨hwork, htrace⟩ := foldl_next p.arch.cfg p.arch.w.word (List.finRange 64) a
  rw [edges_rnd hr hjs (by omega), hj,
    edges_cons_of_walking (p := p.withRounds .ff _) [] ⟨nofun, hr⟩ hfree, advance_ff, hwork, htrace]
  exact ⟨_, rfl⟩

/-! #### The two commands that walk -/

/-- COMPRESS or EXPAND, as the block tells them apart (log entry 16). -/
def walkInstr (compressing : Bool) : Instr := if compressing then .compress else .expand

/-- What each of them checks (R151, R163). -/
def walkChecks (compressing : Bool) : List Elem :=
  if compressing then blockElems ++ hashElems else blockElems

/-- The state each of them leaves, before its response (R151, R163). -/
def walkState (compressing : Bool) (s : State) : State :=
  if compressing then s.compressed else { s with w := s.w.expand }

/-- A command that walks, in one step. -/
theorem exec_walkInstr (compressing : Bool) (s : State) :
    exec (walkInstr compressing) s =
      withWritten (walkChecks compressing) s (.next ((walkState compressing s).respond 0 0)) := by
  cases compressing <;> rfl

/-- The walk takes 48 edges, and 65 more for the rounds and the feed-forward (R164). -/
theorem walkEdges_of_walkInstr {c : Command} {compressing : Bool}
    (hd : decode c = .ok (walkInstr compressing)) :
    walkEdges c = if compressing then 113 else 48 := by
  rw [walkEdges, hd]
  cases compressing <;> rfl

/-- Accepting a command that walks starts its walk at EXP(16), or faults on the first element its
check finds. -/
theorem accept_of_walkInstr {c : Command} {compressing : Bool}
    (hd : decode c = .ok (walkInstr compressing)) (p : PortState) (stall : Bool) :
    p.accept c stall =
      match p.arch.firstUnwritten (walkChecks compressing) with
      | some x => .fault (.unwritten x)
      | none => .next ({ p with compressing := compressing }.expStage 16 p.arch.w) := by
  rw [PortState.accept, hd]
  cases compressing <;> rfl

/-- R72, R164: any other command is done at the edge that accepts it. -/
theorem accept_of_not_walkInstr {c : Command} (hd : ∀ b, decode c ≠ .ok (walkInstr b))
    (p : PortState) (stall : Bool) :
    p.accept c stall =
      match runCommand c p.arch with
      | .next t => .next (p.complete t stall)
      | .fault f => .fault f
      | .refused r => .refused r := by
  rw [PortState.accept]
  split
  case h_1 h => exact absurd h (hd false)
  case h_2 h => exact absurd h (hd true)
  case h_3 => rfl

/-- Any other command takes no walk (log entry 12). -/
theorem walkEdges_of_not_walkInstr {c : Command} (hd : ∀ b, decode c ≠ .ok (walkInstr b)) :
    walkEdges c = 0 := by
  rw [walkEdges]
  split
  case h_1 h => exact absurd h (hd false)
  case h_2 h => exact absurd h (hd true)
  case h_3 => rfl

/-- R163, R164: after EXP(63) the rounds and the feed-forward leave the state of the one-step
COMPRESS. -/
theorem edges_expDone_of_compressing {p : PortState} (hr : p.rsp = none)
    (hc : p.compressing = true) {js : List PortIn} (hjs : ∀ j ∈ js, unhindered j)
    (hlen : js.length = 65) :
    ∃ q : PortState, (p.expDone p.arch.w.expand).edges js =
      .next (q.complete (p.arch.compressed.respond 0 0) false) := by
  rw [PortState.expDone, if_pos hc]
  exact edges_rounds (p := { p with arch := { p.arch with w := p.arch.w.expand } }) hr hjs hlen
    ⟨toWork p.arch.h.word, p.arch.trace, none⟩

/-- R164: the walk from EXP(16) leaves the state of the one step, with its response. -/
theorem edges_walk {p : PortState} (hr : p.rsp = none) {js : List PortIn}
    (hjs : ∀ j ∈ js, unhindered j) (hlen : js.length = if p.compressing then 113 else 48) :
    ∃ q : PortState, (p.expStage 16 p.arch.w).edges js =
      .next (q.complete ((walkState p.compressing p.arch).respond 0 0) false) := by
  cases hc : p.compressing with
  | false =>
    rw [hc] at hlen
    have hdone : js.drop 48 = [] := List.drop_eq_nil_of_le hlen.le
    refine ⟨p, ?_⟩
    rw [edges_expStage hr hjs hlen.ge, hdone, PortState.expDone, hc]
    rfl
  | true =>
    rw [hc] at hlen
    have h113 : js.length = 113 := hlen
    rw [edges_expStage hr hjs (by omega)]
    exact edges_expDone_of_compressing hr hc (fun j hj => hjs j (List.mem_of_mem_drop hj))
      (by simp [h113])

/-! #### The walk and the one step -/

/-- R80: an accepted command is not refused. -/
theorem runCommand_ne_refused (c : Command) (s : State) (r : Refusal) :
    runCommand c s ≠ .refused r := by
  cases hd : decode c with
  | ok i =>
    rw [runCommand_ok s hd]
    exact exec_ne_refused i s r
  | error e =>
    rw [runCommand_error s hd]
    nofun

/-- A command completed from IDLE has its state in and its response waiting. -/
theorem complete_of_runCommand {c : Command} {s t : State} (hidle : s.fsm = .idle)
    (hrun : runCommand c s = .next t) (q : PortState) (stall : Bool) :
    (q.complete t stall).arch = t ∧ (q.complete t stall).rsp = t.responses.getLast? ∧
      (q.complete t stall).rsp ≠ none := by
  have hfsm : t.fsm = .idle := by
    rcases runCommand_next hrun with rfl | ⟨i, -, hexec⟩
    · exact hidle
    · obtain ⟨hfsm, -, -⟩ := exec_frame hexec
      exact hfsm.trans hidle
  obtain ⟨r, -, hadd, -⟩ := runCommand_response hrun
  refine ⟨?_, rfl, by simp [PortState.complete, hadd]⟩
  rw [PortState.complete, ← hfsm]

section Accepted

variable {p : PortState} {i : PortIn} {js : List PortIn} (hidle : p.arch.fsm = .idle)
  (hr : p.rsp = none) (hrst : i.rst = false) (hvalid : i.cmdValid = true)
  (hjs : ∀ j ∈ js, unhindered j) (hlen : js.length = walkEdges i.cmd)

include hidle hr hrst hvalid

/-- Where the one step faults, so does the edge that accepts the command. -/
theorem edges_of_runCommand_fault {f : Fault} (hrun : runCommand i.cmd p.arch = .fault f) :
    p.edges (i :: js) = .fault f := by
  rw [PortState.edges, edge_accept hrst hidle hr hvalid]
  by_cases hd : ∃ b, decode i.cmd = .ok (walkInstr b)
  · obtain ⟨b, hd⟩ := hd
    rw [runCommand_ok _ hd, exec_walkInstr, withWritten_eq] at hrun
    rw [accept_of_walkInstr hd]
    cases hx : p.arch.firstUnwritten (walkChecks b) with
    | none => simp [hx] at hrun
    | some x => simpa [hx] using hrun
  · rw [accept_of_not_walkInstr (not_exists.1 hd), hrun]

include hjs hlen

/-- Where the one step arrives, the walk arrives, and its response is valid unless the accepting
edge of a command without a walk is stalled. -/
theorem edges_of_runCommand_next {t : State} (hrun : runCommand i.cmd p.arch = .next t) :
    ∃ (q : PortState) (stall : Bool), p.edges (i :: js) = .next (q.complete t stall) ∧
      (i.stall = false → stall = false) := by
  rw [PortState.edges, edge_accept hrst hidle hr hvalid]
  by_cases hd : ∃ b, decode i.cmd = .ok (walkInstr b)
  · obtain ⟨b, hd⟩ := hd
    rw [runCommand_ok _ hd, exec_walkInstr] at hrun
    obtain ⟨hx, rfl⟩ := withWritten_next hrun
    rw [walkEdges_of_walkInstr hd] at hlen
    obtain ⟨q, hq⟩ := edges_walk (p := { p with compressing := b }) hr hjs hlen
    rw [accept_of_walkInstr hd, hx]
    exact ⟨q, false, hq, fun _ => rfl⟩
  · have hnone := not_exists.1 hd
    rw [walkEdges_of_not_walkInstr hnone] at hlen
    obtain rfl : js = [] := List.eq_nil_of_length_eq_zero hlen
    rw [accept_of_not_walkInstr hnone, hrun]
    exact ⟨p, i.stall, rfl, id⟩

end Accepted

/-- Settles O41: the one step and the walk fault alike, and otherwise complete with the same
state. -/
theorem signalWalkRefinesTheTransaction : Obligations.SignalWalkRefinesTheTransaction := by
  intro p c i is hidle hr hrst hvalid hcmd hlen hjs
  subst hcmd
  cases hrun : runCommand i.cmd p.arch with
  | next t =>
    obtain ⟨q, stall, hedges, hstall⟩ :=
      edges_of_runCommand_next hidle hr hrst hvalid hjs hlen hrun
    obtain ⟨harch, hrsp, hne⟩ := complete_of_runCommand hidle hrun q stall
    exact ⟨_, hedges, harch, hrsp, hne, fun hi => congrArg Bool.not (hstall hi)⟩
  | fault f => exact edges_of_runCommand_fault hidle hr hrst hvalid hrun
  | refused r => exact runCommand_ne_refused _ _ _ hrun

end Sys2Proof.Machine

/-! ### Proofs: the control and data-movement commands (R181 to R190) -/

namespace Sys2Proof.Machine

open Sys2Proof

/-! #### Index bounds -/

/-- R83, R236: at or past the bound of its array an index is IndexOutOfRange. -/
theorem exec_of_index_ge {i : Instr} {bound : Nat} {n : Idx} (huse : i.idxUse = (.index bound, n))
    (hn : bound ≤ n.toNat) (s : State) : exec i s = .next (s.errored 6) := by
  have herr : i.operandError = some .indexOutOfRange := by
    simp [Instr.operandError, huse, hn]
  exact (exec_operandError herr s).1

/-! #### LOADW and SETH -/

/-- Settles O22: each command is one `Bank.write` at its index, and `write_word` and `write_wr` say
what a bank holds after one. -/
theorem loadsWriteOneWord : Obligations.LoadsWriteOneWord := by
  refine ⟨encodesIndexed_of_decode (opc := 0x02) fun i v y z =>
      decode_unreadPorts (.loadw i v) 0 y z,
    encodesIndexed_of_decode (opc := 0x05) fun i v y z => decode_unreadPorts (.seth i v) 0 y z,
    fun i v s => ⟨fun hi => ?_, fun hi => exec_of_index_ge rfl hi s, fun hi => ?_,
      fun hi => exec_of_index_ge rfl hi s⟩⟩
  · refine ⟨_, exec_loadw hi v s, fun j => ⟨?_, ?_⟩⟩
    · simp only [write_word, blockIndex, eq_comm]
    · simp only [write_wr, blockIndex, eq_comm]
  · refine ⟨_, exec_seth hi v s, fun j => ⟨?_, ?_⟩⟩
    · simp only [write_word, eq_comm]
    · simp only [write_wr, eq_comm]

/-! #### A sequence of SETHs -/

/-- The words of `x` written into a bank one by one, at the listed indices. -/
def Bank.writeEach {n : Nat} (x : Vector Word n) (b : Bank n) (js : List (Fin n)) : Bank n :=
  js.foldl (fun b j => b.write j x[j.val]) b

/-- A bank after such writes: the listed elements hold their words and are written, the others are
as before. -/
theorem writeEach_get {n : Nat} (x : Vector Word n) (b : Bank n) (js : List (Fin n)) (i : Fin n) :
    (b.writeEach x js).word[i.val] = (if i ∈ js then x[i.val] else b.word[i.val]) ∧
      (b.writeEach x js).wr[i.val] = if i ∈ js then true else b.wr[i.val] := by
  induction js generalizing b with
  | nil => exact ⟨rfl, rfl⟩
  | cons j js ih =>
    obtain ⟨hword, hwr⟩ := ih (b.write j x[j.val])
    rw [write_word] at hword
    rw [write_wr] at hwr
    rcases eq_or_ne i j with rfl | hij
    · exact ⟨hword.trans (by simp), hwr.trans (by simp)⟩
    · have hval := Fin.val_ne_of_ne hij.symm
      exact ⟨hword.trans (by simp [hij, hval]), hwr.trans (by simp [hij, hval])⟩

/-- Writing every element of H one by one is writing them all. -/
theorem writeEach_finRange (x : Vector Word 8) (b : Bank 8) :
    b.writeEach x (List.finRange 8) = writeAll x := by
  have hget (i : Nat) (hi : i < 8) :
      (b.writeEach x (List.finRange 8)).word[i] = x[i] ∧
        (b.writeEach x (List.finRange 8)).wr[i] = true := by
    obtain ⟨hword, hwr⟩ := writeEach_get x b (List.finRange 8) ⟨i, hi⟩
    have hmem : (⟨i, hi⟩ : Fin 8) ∈ List.finRange 8 := List.mem_finRange _
    exact ⟨hword.trans (if_pos hmem), hwr.trans (if_pos hmem)⟩
  refine congrArg₂ Bank.mk (Vector.ext fun i hi => (hget i hi).1) (Vector.ext fun i hi => ?_)
  exact (hget i hi).2.trans (writeAll_wr x i hi).symm

/-- R184: SETH of an element's index writes that element. -/
theorem exec_seth_ofNat (j : Fin 8) (v : Word) (s : State) :
    exec (.seth (BitVec.ofNat 8 j.val) v) s =
      .next ({ s with h := s.h.write j v }.answered ⟨0, 0⟩) := by
  have hj : (BitVec.ofNat 8 j.val).toNat = j.val := Nat.mod_eq_of_lt (by omega)
  rw [exec_seth (hj.trans_lt j.isLt)]
  simp only [hj]

/-- A step that answers a next state is the first of a longer run. -/
theorem run_succ_of_step {s t : State} (h : step s = .next t) (k : Nat) :
    Host.Core.run core (k + 1) s = Host.Core.run core k t := by
  have hcore : core.step s = .next t := h
  simp only [Host.Core.run, hcore]

/-- R12, R184: from IDLE with nothing but SETHs of `x` next, the block takes them one a step, writes
their elements in that order and changes only the channel besides. -/
theorem run_seths (x : Vector Word 8) (js : List (Fin 8)) {s : State} (hidle : s.fsm = .idle)
    (hnext : s.input =
      js.map fun j => .command (encode (.seth (BitVec.ofNat 8 j.val) x[j.val]))) :
    ∃ responses, Host.Core.run core js.length s = .next
      { s with h := s.h.writeEach x js, input := [], responses := responses } := by
  induction js generalizing s with
  | nil =>
    rw [List.map_nil] at hnext
    have hempty : s = { s with input := [] } := by rw [← hnext]
    exact ⟨s.responses, congrArg Host.Outcome.next hempty⟩
  | cons j js ih =>
    have hstep := step_of_idle_command hidle hnext
    rw [runCommand_ok _ (decodeInvertsEncode _), exec_seth_ofNat] at hstep
    rw [List.length_cons, run_succ_of_step hstep]
    exact ih hidle rfl

/-- Settles O23: the eight SETHs write every element of H, as INIT does. -/
theorem sethEightTimesIsInit : Obligations.SethEightTimesIsInit := by
  intro s t hidle hnext hinit
  rw [exec_init] at hinit
  cases hinit
  rw [loadHashCommands, map_zipIdx_toList, List.map_map] at hnext
  obtain ⟨responses, hrun⟩ := run_seths s.cfg.ivTable (List.finRange 8) hidle hnext
  rw [writeEach_finRange] at hrun
  exact ⟨_, hrun, rfl, rfl, rfl, rfl, rfl⟩

/-! #### Reading an element out -/

/-- R35, R185 to R187: an index below the bound reads its element out: the word when it is written,
the fault that names it when it is not. -/
theorem withIndex_answerElem {bound : Nat} {k : Idx} (hk : k.toNat < bound)
    (elem : Fin bound → Elem) (s : State) :
    (s.isWritten (elem ⟨k.toNat, hk⟩) = true →
      (withIndex bound k s fun j => answerElem (elem j) s) =
        .next (s.answered ⟨s.wordAt (elem ⟨k.toNat, hk⟩), 0⟩)) ∧
    (s.isWritten (elem ⟨k.toNat, hk⟩) = false →
      (withIndex bound k s fun j => answerElem (elem j) s) =
        .fault (.unwritten (elem ⟨k.toNat, hk⟩))) := by
  rw [withIndex_lt hk, answerElem_eq]
  exact ⟨fun hw => if_pos hw, fun hw => if_neg (Bool.eq_false_iff.1 hw)⟩

/-- Settles O24: each read checks its index and then reads the one element it names. -/
theorem readsAnswerTheElement : Obligations.ReadsAnswerTheElement := by
  refine ⟨encodesIndexed_of_decode (opc := 0x06) fun i x y z => decode_unreadPorts (.readh i) x y z,
    encodesIndexed_of_decode (opc := 0x07) fun i x y z => decode_unreadPorts (.readw i) x y z,
    encodesIndexed_of_decode (opc := 0x08) fun i x y z => decode_unreadPorts (.readv i) x y z,
    fun i s => ⟨fun hi => ?_, fun hi => withIndex_answerElem hi .w s,
      fun hi => exec_of_index_ge rfl hi s, fun hi => exec_of_index_ge rfl hi s,
      fun hi => exec_of_index_ge rfl hi s⟩⟩
  obtain ⟨hhWritten, hhUnwritten⟩ := withIndex_answerElem hi .h s
  exact ⟨hhWritten, hhUnwritten, withIndex_answerElem hi .v s⟩

/-! #### READK and RDSTAT -/

/-- R29: STATUS as a number: ERRCODE, and 16 for the ERR bit. -/
theorem statusWord_toNat (c : Code) :
    (statusWord c).toNat = c.toNat + if c = 0 then 0 else 16 := by
  have hc : c.toNat < 2 ^ 4 := c.isLt
  have herr : (errBit c).toNat = if c = 0 then 0 else 1 := apply_ite BitVec.toNat ..
  simp only [statusWord, BitVec.toNat_append, BitVec.toNat_ofNat, herr]
  rw [shiftLeft_or_eq_add _ hc]
  split <;> simp [Nat.add_comm]

/-- Settles O25: READK answers the constant of its index, and RDSTAT the status word. -/
theorem readkAndRdstatAnswer : Obligations.ReadkAndRdstatAnswer := by
  refine ⟨encodesIndexed_of_decode (opc := 0x09) fun i x y z => decode_unreadPorts (.readk i) x y z,
    encodesPlain_of_decode (opc := 0x0A) (by decide) fun x y z => decode_unreadPorts .rdstat x y z,
    fun i s => ⟨fun hi => exec_readk hi s, fun hi => exec_of_index_ge rfl hi s, ?_⟩⟩
  exact ⟨statusWord s.errcode, exec_rdstat s, statusWord_toNat s.errcode⟩

/-! #### NOP, INIT and CLRERR -/

/-- R181: NOP answers and does nothing else. -/
theorem exec_nop (s : State) : exec .nop s = .next (s.answered ⟨0, 0⟩) := by
  rw [exec, execNop, respond_zero]

/-- R190: CLRERR clears ERRCODE and answers. -/
theorem exec_clrerr (s : State) :
    exec .clrerr s = .next ({ s with errcode := 0 }.answered ⟨0, 0⟩) := by
  rw [exec, execClrerr, respond_zero, State.clearError]

/-- Settles O21: INIT's bank is `writeAll` of the table, and NOP and CLRERR write no bank. -/
theorem nopInitClrerrEffects : Obligations.NopInitClrerrEffects := by
  refine ⟨encodesPlain_of_decode (opc := 0x00) (by decide) fun x y z =>
      decode_unreadPorts .nop x y z,
    encodesPlain_of_decode (opc := 0x01) (by decide) fun x y z => decode_unreadPorts .init x y z,
    encodesPlain_of_decode (opc := 0x0B) (by decide) fun x y z => decode_unreadPorts .clrerr x y z,
    fun s => ⟨exec_nop s, ?_, exec_clrerr s⟩⟩
  exact ⟨writeAll s.cfg.ivTable, exec_init s, fun i => ⟨rfl, writeAll_wr _ i.val i.isLt⟩⟩

end Sys2Proof.Machine

/-! ### Proofs: padding (R213, R214) -/

namespace Sys2Proof.Machine

open Sys2Proof

/-- R213: the zeros are fewer than 512 and bring the length to 448 modulo 512. -/
theorem padZeros_spec (len : Nat) :
    padZeros len < 512 ∧ (len + 1 + padZeros len) % 512 = 448 := by
  unfold padZeros
  omega

/-- R213: below 2^64 bits the message is padded. -/
theorem pad_of_lt {bits : List Bool} (h : bits.length < 2 ^ 64) :
    pad bits = .ok (bits ++ [true] ++ List.replicate (padZeros bits.length) false ++
      bitsBE 64 bits.length) := by
  rw [pad, if_pos h, List.append_assoc bits [true], List.singleton_append]

/-- R214: from 2^64 bits up it is refused. -/
theorem pad_of_le {bits : List Bool} (h : 2 ^ 64 ≤ bits.length) :
    pad bits = .error (.error .messageTooLong) :=
  if_neg (Nat.not_lt.2 h)

/-- The last bits of a list that ends in the `n` bits of a number spell it. -/
theorem natOfBits_drop_bitsBE (bits : List Bool) {n v : Nat} (h : v < 2 ^ n) :
    natOfBits ((bits ++ bitsBE n v).drop ((bits ++ bitsBE n v).length - n)) = v := by
  rw [List.drop_left' (by simp), natOfBits_bitsBE, Nat.mod_eq_of_lt h]

/-- Settles O45: `padZeros_spec` gives the number of zeros, and the lengths follow from it. -/
theorem padReachesTheLeastMultiple : Obligations.PadReachesTheLeastMultiple := by
  refine fun bits => ⟨fun hlen => ?_, pad_of_le⟩
  obtain ⟨hlt, hmod⟩ := padZeros_spec bits.length
  refine ⟨padZeros bits.length, hlt, hmod, fun hbytes => by omega, _, pad_of_lt hlen, rfl,
    ?_, ?_, ?_, natOfBits_drop_bitsBE _ hlen⟩
  all_goals
    simp only [List.length_append, List.length_singleton, List.length_replicate, bitsBE_length]
    omega

end Sys2Proof.Machine

/-! ### Proofs: the hash as a command sequence (R217, R218) -/

namespace Sys2Proof.Machine

open Sys2Proof

/-! #### Driving commands that succeed -/

/-- R219: an encoded command that answers with RCODE 0 in IDLE is issued without error. -/
theorem issue_encode {i : Instr} {s t : State} {x : Word} (hidle : s.fsm = .idle)
    (hexec : exec i s = .next (t.answered ⟨x, 0⟩)) (hresponses : t.responses = s.responses) :
    issue (encode i) s = .ok (t.answered ⟨x, 0⟩, ⟨x, 0⟩) :=
  issue_next (decodeInvertsEncode i) hidle hexec (by rw [answered_responses, hresponses]) rfl

/-- A command issued, then a list driven. -/
theorem drive_cons_ok {c : Command} {cs : List Command} {s t u : State} {r : Response}
    {rs : List Word} (hissue : issue c s = .ok (t, r)) (hdrive : drive cs t = .ok (u, rs)) :
    drive (c :: cs) s = .ok (u, r.result :: rs) := by
  simp only [drive, hissue, hdrive]

/-- A list driven, then another. -/
theorem drive_append_ok {as bs : List Command} {s t u : State} {rs rs' : List Word}
    (has : drive as s = .ok (t, rs)) (hbs : drive bs t = .ok (u, rs')) :
    drive (as ++ bs) s = .ok (u, rs ++ rs') := by
  simp only [drive_append, has, hbs]

/-! #### Loading a block -/

/-- The schedule memory after a block's words are loaded over `w` (R183, R217). -/
def Bank.loadBlock (w : Bank 64) (b : BlockWords) : Bank 64 :=
  w.writeEach (blockSchedule b) ((List.finRange 16).map blockIndex)

/-- Loading writes every block word. -/
theorem loadBlock_get (w : Bank 64) (b : BlockWords) {j : Nat} (hj : j < 16) :
    (w.loadBlock b).word[j] = (blockSchedule b)[j] ∧ (w.loadBlock b).wr[j] = true := by
  obtain ⟨hword, hwr⟩ :=
    writeEach_get (blockSchedule b) w ((List.finRange 16).map blockIndex) (blockIndex ⟨j, hj⟩)
  have hmem : blockIndex ⟨j, hj⟩ ∈ (List.finRange 16).map blockIndex :=
    List.mem_map_of_mem (List.mem_finRange _)
  exact ⟨hword.trans (if_pos hmem), hwr.trans (if_pos hmem)⟩

/-- R88: the commands of a sixteen-word block, by index. -/
theorem loadBlockCommands_eq {b : BlockWords} (hb : b.length = 16) :
    loadBlockCommands b = (List.finRange 16).map fun j =>
      encode (.loadw (BitVec.ofNat 8 j.val) (blockSchedule b)[(blockIndex j).val]) :=
  List.ext_getElem (by simp [loadBlockCommands, hb]) fun j hj _ => by
    have hget : j < b.length := by simpa [loadBlockCommands] using hj
    simp [loadBlockCommands, blockSchedule, blockIndex, hget]

/-- R183: LOADW of a block word's index writes that word. -/
theorem exec_loadw_ofNat (j : Fin 16) (v : Word) (s : State) :
    exec (.loadw (BitVec.ofNat 8 j.val) v) s =
      .next ({ s with w := s.w.write (blockIndex j) v }.answered ⟨0, 0⟩) := by
  have hj : (BitVec.ofNat 8 j.val).toNat = j.val := Nat.mod_eq_of_lt (by omega)
  rw [exec_loadw (hj.trans_lt j.isLt)]
  simp only [hj]

/-- R183: LOADWs of `x` write their words in order and add responses, and nothing else. -/
theorem drive_loadws (x : Vector Word 64) (js : List (Fin 16)) {s : State}
    (hidle : s.fsm = .idle) :
    ∃ responses rs,
      drive (js.map fun j => encode (.loadw (BitVec.ofNat 8 j.val) x[(blockIndex j).val])) s =
        .ok ({ s with w := s.w.writeEach x (js.map blockIndex), responses := responses }, rs) := by
  induction js generalizing s with
  | nil => exact ⟨s.responses, [], rfl⟩
  | cons j js ih =>
    have hissue := issue_encode hidle (exec_loadw_ofNat j x[(blockIndex j).val] s) rfl
    obtain ⟨responses, rs, hdrive⟩ := ih
      (s := { s with w := s.w.write (blockIndex j) x[(blockIndex j).val] }.answered ⟨0, 0⟩) hidle
    exact ⟨responses, _, drive_cons_ok hissue hdrive⟩

/-- R88: LOADBLK loads the block, and leaves H and the tables. -/
theorem drive_loadBlockCommands {b : BlockWords} {s : State} (hb : b.length = 16)
    (hidle : s.fsm = .idle) :
    ∃ t rs, drive (loadBlockCommands b) s = .ok (t, rs) ∧ t.fsm = .idle ∧ t.cfg = s.cfg ∧
      t.h = s.h ∧ t.w = s.w.loadBlock b := by
  obtain ⟨responses, rs, hload⟩ := drive_loadws (blockSchedule b) (List.finRange 16) hidle
  rw [← loadBlockCommands_eq hb] at hload
  exact ⟨_, rs, hload, hidle, rfl, rfl, rfl⟩

/-! #### Blocks in order -/

/-- R165, R217: a block's commands compress its expansion into the words H holds. -/
theorem drive_blockCommands {b : BlockWords} {s : State} {h : Vector Word 8} (hb : b.length = 16)
    (hidle : s.fsm = .idle) (hh : s.h = writeAll h) :
    ∃ t rs, drive (blockCommands b) s = .ok (t, rs) ∧ t.fsm = .idle ∧ t.cfg = s.cfg ∧
      t.h = writeAll (compressWords (expandWords (blockSchedule b)) h s.cfg.kTable) := by
  obtain ⟨t, rs, hload, htidle, htcfg, hth, htw⟩ := drive_loadBlockCommands hb hidle
  rw [hh] at hth
  have hblock : t.blockWritten := fun i hi => by simp only [htw, (loadBlock_get s.w b hi).2]
  have hhash : t.hashWritten := fun i => by simp only [hth, writeAll_wr]
  have hwords : t.w.expand.word = expandWords (blockSchedule b) := by
    rw [htw, expand_word]
    exact expandWords_congr fun j hj => (loadBlock_get s.w b hj).1
  have hissue := issue_encode htidle (exec_compress hblock hhash) (compressed_responses t)
  refine ⟨_, _, drive_append_ok hload (drive_cons_ok hissue rfl), htidle, htcfg, ?_⟩
  rw [answered_h, compressed_h, hwords, hth, writeAll_word, htcfg]

/-- R217: blocks driven in order chain: each is compressed into the words those before it left. -/
theorem drive_blocks {blocks : List BlockWords} {s : State} {h : Vector Word 8}
    (hblocks : ∀ b ∈ blocks, b.length = 16) (hidle : s.fsm = .idle) (hh : s.h = writeAll h) :
    ∃ t rs, drive (blocks.flatMap blockCommands) s = .ok (t, rs) ∧ t.fsm = .idle ∧
      t.h = writeAll (hashWords s.cfg.kTable h blocks) := by
  induction blocks generalizing s h with
  | nil => exact ⟨s, [], rfl, hidle, hh⟩
  | cons b bs ih =>
    obtain ⟨hb, hbs⟩ := List.forall_mem_cons.1 hblocks
    obtain ⟨t, rs, hblock, htidle, htcfg, hth⟩ := drive_blockCommands hb hidle hh
    obtain ⟨u, rs', hrest, huidle, huh⟩ := ih hbs htidle hth
    rw [htcfg] at huh
    exact ⟨u, _, drive_append_ok hblock hrest, huidle, huh⟩

/-! #### The digest -/

/-- R185: READH of an element's index answers that element, once H is written. -/
theorem exec_readh_ofNat (j : Fin 8) {s : State} (hwritten : s.hashWritten) :
    exec (.readh (BitVec.ofNat 8 j.val)) s = .next (s.answered ⟨s.h.word[j.val], 0⟩) := by
  have hj : (BitVec.ofNat 8 j.val).toNat = j.val := Nat.mod_eq_of_lt (by omega)
  rw [exec, execReadh, withIndex_lt (hj.trans_lt j.isLt)]
  simp only [hj]
  exact (answerElem_eq (.h j) s).trans (if_pos (hwritten j))

/-- R185: READHs answer their elements in order. -/
theorem drive_readhs (js : List (Fin 8)) {s : State} (hidle : s.fsm = .idle)
    (hwritten : s.hashWritten) :
    ∃ u, drive (js.map fun j => encode (.readh (BitVec.ofNat 8 j.val))) s =
      .ok (u, js.map fun j => s.h.word[j.val]) := by
  induction js generalizing s with
  | nil => exact ⟨s, rfl⟩
  | cons j js ih =>
    have hissue := issue_encode hidle (exec_readh_ofNat j hwritten) rfl
    obtain ⟨u, hdrive⟩ := ih (s := s.answered ⟨s.h.word[j.val], 0⟩) hidle hwritten
    exact ⟨u, drive_cons_ok hissue hdrive⟩

/-- R88, R216: DIGEST answers the words of H, once written, H[0] first. -/
theorem drive_digestCommands {s : State} {h : Vector Word 8} (hidle : s.fsm = .idle)
    (hh : s.h = writeAll h) : ∃ u, drive digestCommands s = .ok (u, h.toList) := by
  have hwritten : s.hashWritten := fun i => by simp only [hh, writeAll_wr]
  obtain ⟨u, hdrive⟩ := drive_readhs (List.finRange 8) hidle hwritten
  have hresults : ((List.finRange 8).map fun j => s.h.word[j.val]) = h.toList :=
    List.ext_getElem (by simp) (by simp [hh])
  exact ⟨u, hresults ▸ hdrive⟩

/-- Settles O47: INIT puts the table in H, and each block takes H one step along the chain. -/
theorem hashSequenceChainsBlocks : Obligations.HashSequenceChainsBlocks := by
  intro blocks s hblocks hidle
  have hinit := issue_encode hidle (exec_init s) rfl
  obtain ⟨t, rs, hdrive, htidle, hth⟩ :=
    drive_blocks (s := { s with h := writeAll s.cfg.ivTable }.answered ⟨0, 0⟩) hblocks hidle rfl
  obtain ⟨u, hdigest⟩ := drive_digestCommands htidle hth
  exact ⟨t, _, u, drive_cons_ok hinit hdrive, congrArg Bank.word hth, hdigest⟩

/-! #### The whole pipeline -/

/-- R215: a parsed block has sixteen words. -/
theorem length_of_mem_parseBlocks {padded : List Bool} {b : BlockWords}
    (hb : b ∈ parseBlocks padded) : b.length = 16 := by
  obtain ⟨k, -, rfl⟩ := List.mem_map.1 hb
  rw [List.length_map, List.length_range]

/-- Settles O48: the host drives the padded message's blocks as O47 says and serialises the
answers. -/
theorem fullHashIsThePureHash : Obligations.FullHashIsThePureHash := by
  intro m s hidle
  refine ⟨fun hlen => ?_, fun hlen => ?_⟩
  · obtain ⟨bits, hpad⟩ : ∃ bits, pad (encodeBits m) = .ok bits :=
      ⟨_, pad_of_lt (by rwa [encodeBits_length])⟩
    obtain ⟨t, rs, u, hdrive, -, hdigest⟩ :=
      hashSequenceChainsBlocks (parseBlocks bits) s (fun _ => length_of_mem_parseBlocks) hidle
    exact ⟨bits, hpad, by simp only [fullHash, hpad, hdrive, hdigest]⟩
  · have hpad := pad_of_le (bits := encodeBits m) (by rwa [encodeBits_length])
    simp only [fullHash, hpad]

end Sys2Proof.Machine

/-! ### Proofs: the digest's digits (R112, R216) -/

namespace Sys2Proof.Machine

open Sys2Proof

/-- The lower-case hex digits, by their codes (R112). -/
def isLowerHexDigit (c : Char) : Prop :=
  48 ≤ c.toNat ∧ c.toNat ≤ 57 ∨ 97 ≤ c.toNat ∧ c.toNat ≤ 102

/-- R112: a digit below 16 is written in lower case. -/
theorem isLowerHexDigit_hexDigit {d : Nat} (h : d < 16) : isLowerHexDigit (hexDigit d) := by
  unfold isLowerHexDigit
  revert d
  decide

/-- R112: a number's hex digits are in lower case. -/
theorem isLowerHexDigit_of_mem_hexDigits {k v : Nat} {c : Char} (hc : c ∈ hexDigits k v) :
    isLowerHexDigit c := by
  induction k generalizing v with
  | zero => cases hc
  | succ k ih =>
    rcases List.mem_append.1 hc with hinit | hlast
    · exact ih hinit
    · rw [List.mem_singleton.1 hlast]
      exact isLowerHexDigit_hexDigit (Nat.mod_lt _ (by decide))

/-- R216: a word has eight digits. -/
theorem toHex_length_word (w : Word) : (FixedWord.mk 32 w.toNat).toHex.length = 8 :=
  hexDigits_length (32 / 4) w.toNat

/-- R216: eight digits a word. -/
theorem digestHex_length (words : List Word) : (digestHex words).length = 8 * words.length := by
  induction words with
  | nil => rfl
  | cons w ws ih =>
    rw [digestHex, List.flatMap_cons, ← digestHex, List.length_append, toHex_length_word, ih,
      List.length_cons, Nat.mul_succ, Nat.add_comm]

/-- R216: the i-th group of eight digits is the i-th word's. -/
theorem digestHex_group {words : List Word} {i : Nat} (hi : i < words.length) :
    ((digestHex words).drop (8 * i)).take 8 = (FixedWord.mk 32 words[i].toNat).toHex := by
  induction words generalizing i with
  | nil => exact absurd hi (Nat.not_lt_zero i)
  | cons w ws ih =>
    rw [digestHex, List.flatMap_cons, ← digestHex]
    cases i with
    | zero => exact List.take_left' (toHex_length_word w)
    | succ i =>
      rw [show 8 * (i + 1) = 8 + 8 * i by omega, ← List.drop_drop,
        List.drop_left' (toHex_length_word w)]
      exact ih (Nat.lt_of_succ_lt_succ hi)

/-- Settles O49: each group of eight is the word's own digits, which read back as the word. -/
theorem digestHexReadsBack : Obligations.DigestHexReadsBack := by
  intro words hlen
  refine ⟨by rw [digestHex_length, hlen], fun c hc => ?_, fun i hi => ?_⟩
  · obtain ⟨w, -, hw⟩ := List.mem_flatMap.1 hc
    exact isLowerHexDigit_of_mem_hexDigits hw
  · have hi' : i < words.length := hlen ▸ hi
    rw [digestHex_group hi', List.getElem_eq_getD (fallback := 0)]
    exact construct_toHex (by decide) (by decide) (BitVec.isLt _)

end Sys2Proof.Machine

/-! ### Proofs: the trace port and the steps (R251, R252) -/

namespace Sys2Proof.Machine

open Sys2Proof

/-! #### States that differ in the trace alone -/

/-- `t` is `s` with the trace port there or not, as `present` says, and any records so far
(R251). -/
def State.tracedAs (present : Bool) (s t : State) : Prop :=
  ∃ records, t = s.withTrace present records

section WithTrace

variable (s : State) (present : Bool) (records : List TraceRecord)

/-- R35: the trace hides no written flag. -/
theorem firstUnwritten_withTrace (xs : List Elem) :
    (s.withTrace present records).firstUnwritten xs = s.firstUnwritten xs := by
  induction xs with
  | nil => rfl
  | cons x xs ih =>
    simp only [State.firstUnwritten, ih]
    cases x <;> rfl

/-- R86: the trace plays no part in a response. -/
theorem respond_withTrace (x : Word) (c : Code) :
    (s.withTrace present records).respond x c = (s.respond x c).withTrace present records := by
  simp only [State.respond, recordError_eq, State.withTrace]

/-- The same response to both, as outcomes. -/
theorem next_respond_withTrace (x : Word) (c : Code) :
    outcomesRelated (State.tracedAs present) (.next (s.respond x c))
      (.next ((s.withTrace present records).respond x c)) :=
  ⟨records, respond_withTrace s present records x c⟩

section Operands

variable {s present records}

/-- R83: the index check reads no trace. -/
theorem withIndex_withTrace {bound : Nat} (k : Idx)
    {f g : Fin bound → Host.Outcome State Fault Refusal}
    (hfg : ∀ j, outcomesRelated (State.tracedAs present) (f j) (g j)) :
    outcomesRelated (State.tracedAs present) (withIndex bound k s f)
      (withIndex bound k (s.withTrace present records) g) := by
  unfold withIndex
  split
  · exact hfg _
  · exact next_respond_withTrace s present records 0 _

/-- R113: the check of a shift amount reads no trace. -/
theorem withShift_withTrace (n : Idx) (f : Nat → Word) :
    outcomesRelated (State.tracedAs present)
      (withShift n s fun m => .next (s.respond (f m) 0))
      (withShift n (s.withTrace present records) fun m =>
        .next ((s.withTrace present records).respond (f m) 0)) := by
  unfold withShift
  split
  · exact next_respond_withTrace s present records _ 0
  · exact next_respond_withTrace s present records 0 _

/-- R35: reading an element answers the same word or faults alike. -/
theorem answerElem_withTrace (x : Elem) :
    outcomesRelated (State.tracedAs present) (answerElem x s)
      (answerElem x (s.withTrace present records)) := by
  have hread : (s.withTrace present records).read x = s.read x := by cases x <;> rfl
  unfold answerElem
  rw [hread]
  cases s.read x with
  | ok v => exact next_respond_withTrace s present records v 0
  | error f => rfl

/-- R151, R163: the written check faults alike or goes on in both. -/
theorem withWritten_withTrace (xs : List Elem) {a b : Host.Outcome State Fault Refusal}
    (hab : outcomesRelated (State.tracedAs present) a b) :
    outcomesRelated (State.tracedAs present) (withWritten xs s a)
      (withWritten xs (s.withTrace present records) b) := by
  rw [withWritten_eq, withWritten_eq, firstUnwritten_withTrace]
  cases s.firstUnwritten xs with
  | some x => rfl
  | none => exact hab

end Operands

/-- R163: COMPRESS leaves the same H, V and W whatever the trace port; only what it adds to the
trace depends on the port. -/
theorem compressed_withTrace :
    s.compressed.tracedAs present (s.withTrace present records).compressed := ⟨_, rfl⟩

/-- R251: no command reads the trace or asks whether the port is there, but for the records a
COMPRESS adds. -/
theorem exec_withTrace (i : Instr) :
    outcomesRelated (State.tracedAs present) (exec i s)
      (exec i (s.withTrace present records)) := by
  cases i
  case init =>
    exact next_respond_withTrace { s with h := writeAll s.cfg.ivTable } present records 0 0
  case loadw k v =>
    exact withIndex_withTrace k fun j =>
      next_respond_withTrace { s with w := s.w.write (blockIndex j) v } present records 0 0
  case seth k v =>
    exact withIndex_withTrace k fun j =>
      next_respond_withTrace { s with h := s.h.write j v } present records 0 0
  case expand =>
    exact withWritten_withTrace _
      (next_respond_withTrace { s with w := s.w.expand } present records 0 0)
  case compress =>
    obtain ⟨more, hcompressed⟩ := compressed_withTrace s present records
    refine withWritten_withTrace _ ?_
    rw [hcompressed]
    exact next_respond_withTrace s.compressed present more 0 0
  case readh k => exact withIndex_withTrace k fun j => answerElem_withTrace _
  case readw k => exact withIndex_withTrace k fun j => answerElem_withTrace _
  case readv k => exact withIndex_withTrace k fun j => answerElem_withTrace _
  case readk k =>
    exact withIndex_withTrace k fun j =>
      next_respond_withTrace s present records s.cfg.kTable[j.val] 0
  case clrerr => exact next_respond_withTrace s.clearError present records 0 0
  case shl a n => exact withShift_withTrace n (shl a)
  case shr a n => exact withShift_withTrace n (shr a)
  case rotl a n => exact withShift_withTrace n (rotl a)
  case rotr a n => exact withShift_withTrace n (rotr a)
  all_goals exact next_respond_withTrace s present records _ 0

/-- R79: the decoder looks at no state, so an accepted command answers both alike. -/
theorem runCommand_withTrace (c : Command) :
    outcomesRelated (State.tracedAs present) (runCommand c s)
      (runCommand c (s.withTrace present records)) := by
  unfold runCommand
  cases decode c with
  | ok i => exact exec_withTrace s present records i
  | error e => exact next_respond_withTrace s present records 0 _

end WithTrace

/-- Settles O20: the two states have the same event next and the same sequencing state, so both
stay, both are reset, or both run the same command. -/
theorem traceChangesNoStep : Obligations.TraceChangesNoStep := by
  intro s present records
  have hinput : (s.withTrace present records).input = s.input := rfl
  have hfsm : (s.withTrace present records).fsm = s.fsm := rfl
  rw [step_eq, step_eq, hinput, hfsm]
  split
  · exact ⟨records, rfl⟩
  · exact ⟨[], rfl⟩
  · next c rest _ =>
    split
    · exact runCommand_withTrace { s with input := rest } present records c
    · exact ⟨records, rfl⟩

/-! #### Only a COMPRESS adds records -/

section CompressRecords

variable {cfg : Config} (w : Vector Word 64) (x : Work) (h : cfg.trace = true)

include h

/-- R252: the records are numbered 0 to 63 in order. -/
theorem compressRecords_rounds :
    (compressRecords cfg w x).map TraceRecord.round = List.finRange 64 := by
  rw [compressRecords_eq, if_pos h, List.map_map]
  exact List.map_id _

/-- R252: the last record holds the values all 64 rounds leave. -/
theorem compressRecords_getLast? :
    (compressRecords cfg w x).getLast?.map TraceRecord.work =
      some (runRounds cfg.kTable w x) := by
  have hlast : (List.finRange 64).getLast? = some 63 := by decide
  rw [compressRecords_eq, if_pos h, List.getLast?_map, hlast, ← workAfter_all]
  rfl

end CompressRecords

/-- R252: only a COMPRESS writes the trace. -/
theorem trace_of_exec_ne_compress {i : Instr} {s t : State} (h : exec i s = .next t)
    (hne : i ≠ .compress) : t.trace = s.trace := by
  rcases exec_cases h with ⟨c, -, rfl, -⟩ | ⟨-, r, rfl⟩ | ⟨-, rfl⟩ | ⟨k, v, hk, -, rfl⟩ |
    ⟨k, v, hk, -, rfl⟩ | ⟨-, -, rfl⟩ | ⟨hi, -⟩ | ⟨-, rfl⟩
  on_goal 7 => exact absurd hi hne
  all_goals simp

/-- R163: a COMPRESS that does not fault leaves the compressed state. -/
theorem exec_compress_next {s t : State} (h : exec .compress s = .next t) :
    t = s.compressed.answered ⟨0, 0⟩ :=
  (withWritten_next h).2.trans (respond_zero s.compressed 0)

/-- Settles O19: a COMPRESS with the port adds the records of its 64 rounds, the last of which
leaves V; without the port it adds none. -/
theorem onlyCompressEmitsTraceRecords : Obligations.OnlyCompressEmitsTraceRecords := by
  intro i s t h
  by_cases hi : i = .compress
  · subst hi
    rw [exec_compress_next h]
    by_cases hport : s.cfg.trace = true
    · rw [if_pos ⟨rfl, hport⟩]
      exact ⟨_, rfl, compressRecords_rounds _ _ hport, compressRecords_getLast? _ _ hport⟩
    · rw [if_neg fun hand => hport hand.2, answered_trace, compressed_trace, compressRecords,
        if_neg hport, List.append_nil]
  · rw [if_neg fun hand => hi hand.1]
    exact trace_of_exec_ne_compress h hi

/-! #### The trace outputs -/

/-- Settles O54: the trace outputs are a field of their own, read off the configuration, and no
other output reads it or the trace. -/
theorem traceOutputsExistOnlyWithTrace : Obligations.TraceOutputsExistOnlyWithTrace := by
  intro p rst present records
  refine ⟨?_, rfl⟩
  cases htrace : p.arch.cfg.trace <;> simp [PortState.out, htrace]

end Sys2Proof.Machine

/-! ### Proofs: a block with nothing to do (R249, R265) -/

namespace Sys2Proof.Machine

open Sys2Proof

/-- Settles O2: the step takes the branch of no event, or that of a command not accepted. -/
theorem blockHoldsStateWithoutACommand : Obligations.BlockHoldsStateWithoutACommand := by
  refine ⟨fun s hnone => ?_, fun s c rest hnext hbusy => ?_⟩
  · rw [step_eq, hnone]
  · rw [step_eq, hnext]
    exact if_neg hbusy

end Sys2Proof.Machine

/-! ### Proofs: building a block (R6, R231) -/

namespace Sys2Proof.Machine

open Sys2Proof

/-- R6: the construction rule on a width. -/
theorem widthAllowed_iff {w : Int} : widthAllowed w = true ↔ 0 < w ∧ w % 4 = 0 := by
  simp [widthAllowed]

/-- With width 32 and R6's other values, only whether there are any engines is left to check. -/
theorem check_of_fixedValues {p : Params} (hwidth : p.width = 32) (hfixed : p.fixedValues = true)
    (hlatency : p.latencies.legal = true) :
    p.check = if p.nEngines = 0 then .error .noEngines else .ok p.cfg := by
  have hallowed : widthAllowed 32 = true := rfl
  simp [Params.check, hallowed, hwidth, hfixed, hlatency]

/-- R6, R231: the check passes exactly for R6's values. -/
theorem check_eq_ok_iff {p : Params} {cfg : Config} :
    p.check = .ok cfg ↔ (p.width = 32 ∧ p.restInScope) ∧ cfg = p.cfg := by
  constructor
  · intro h
    unfold Params.check at h
    split_ifs at h with hallowed hwidth hfixed hlatency hengines
    cases h
    simp only [Bool.not_eq_true', Bool.not_eq_false] at hfixed hlatency
    exact ⟨⟨not_not.1 hwidth, hfixed, hlatency, Nat.pos_of_ne_zero hengines⟩, rfl⟩
  · rintro ⟨⟨hwidth, hfixed, hlatency, hengines⟩, rfl⟩
    rw [check_of_fixedValues hwidth hfixed hlatency, if_neg hengines.ne']

/-- A failed check builds no block. -/
theorem build_of_check_error {p : Params} {r : Refusal} (h : p.check = .error r) :
    p.build = .error r := by
  rw [Params.build, h]

/-- R66: a passed check builds the engines, each in the reset state. -/
theorem build_of_check_ok {p : Params} {cfg : Config} (h : p.check = .ok cfg) :
    p.build = .ok ⟨p, List.replicate p.nEngines (.running (State.resetWith cfg))⟩ := by
  rw [Params.build, h]

/-- R231: a width the construction rule forbids is refused before anything else is looked at. -/
theorem check_of_not_widthAllowed {p : Params} (h : ¬ widthAllowed p.width = true) :
    p.check = .error .invalidWidth := by
  simp [Params.check, h]

/-- R231: an allowed width other than 32 is outside the spec. -/
theorem check_of_width_ne {p : Params} (h : widthAllowed p.width = true) (hne : p.width ≠ 32) :
    p.check = .error .widthOutsideSpec := by
  simp [Params.check, h, hne]

/-- R6, R231: a block is built exactly for R6's values. -/
theorem build_eq_ok_iff {p : Params} :
    (∃ e, p.build = .ok e) ↔ p.width = 32 ∧ p.restInScope := by
  constructor
  · rintro ⟨e, he⟩
    cases hcheck : p.check with
    | error r => rw [build_of_check_error hcheck] at he; cases he
    | ok cfg => exact (check_eq_ok_iff.1 hcheck).1
  · exact fun h => ⟨_, build_of_check_ok (check_eq_ok_iff.2 ⟨h, rfl⟩)⟩

/-- Settles O50: `build` answers what the check answers, and the check looks at the width first and
at the number of engines last. -/
theorem onlyWidth32IsBuilt : Obligations.OnlyWidth32IsBuilt := by
  refine fun p => ⟨fun hrest => ⟨fun hbad => ?_, fun hpos hdvd hne => ?_, fun hwidth => ?_⟩,
    build_eq_ok_iff, fun hwidth hfixed hlatency hnone => ?_⟩
  · refine build_of_check_error (check_of_not_widthAllowed fun hallowed => ?_)
    obtain ⟨hpos, hdvd⟩ := widthAllowed_iff.1 hallowed
    omega
  · exact build_of_check_error (check_of_width_ne (widthAllowed_iff.2 ⟨hpos, hdvd⟩) hne)
  · exact build_of_check_ok (check_eq_ok_iff.2 ⟨⟨hwidth, hrest⟩, rfl⟩)
  · refine build_of_check_error ?_
    rw [check_of_fixedValues hwidth hfixed hlatency, if_pos hnone]

end Sys2Proof.Machine

/-! ### Proofs: reset, as a step and at an edge (R260 to R262) -/

namespace Sys2Proof.Machine

open Sys2Proof

/-- R260: a reset at the head of the channel is applied from any state, and taken off it. -/
theorem step_of_reset {s : State} {rest : List HostInput} (hnext : s.input = .reset :: rest) :
    step s = .next { s with input := rest }.applyReset := by
  rw [step_eq, hnext]

/-- R260: reset clears every written flag. -/
theorem applyReset_isWritten (s : State) (x : Elem) : s.applyReset.isWritten x = false := by
  have hkeep : s.applyReset.isWritten x = (State.resetWith s.cfg).isWritten x := by cases x <;> rfl
  exact hkeep.trans (resetWith_isWritten s.cfg x)

/-- R260, I22: a run whose first step faults ends in that fault, however long it is. -/
theorem run_of_step_fault {s : State} {f : Fault} (h : step s = .fault f) (k : Nat) :
    Host.Core.run core (k + 1) s = .fault f := by
  have hcore : core.step s = .fault f := h
  simp only [Host.Core.run, hcore]

/-- Settles O38: the step is `applyReset`, and a run stops at its first fault. -/
theorem resetStepFromAnyState : Obligations.ResetStepFromAnyState := by
  refine ⟨fun s rest hnext => ?_, fun _ _ k hfault => run_of_step_fault hfault k⟩
  exact ⟨_, step_of_reset hnext, applyReset_isWritten _, applyReset_errcode _, applyReset_fsm _,
    applyReset_responses _, applyReset_trace _, applyReset_cfg _, applyReset_input _⟩

/-- Settles O39: the edge is `PortState.reset`, which looks at nothing of the walk, and `rst` masks
both handshake outputs. -/
theorem resetEdgeAbandonsTheCommand : Obligations.ResetEdgeAbandonsTheCommand := by
  refine ⟨fun p i hrst => ?_, fun _ => ⟨rfl, rfl⟩⟩
  have hready : (p.reset.out false).cmdReady = true :=
    (cmdReady_iff p.reset).2 ⟨applyReset_fsm p.arch, rfl⟩
  exact ⟨p.reset, edge_reset hrst, rfl, applyReset_isWritten p.arch, applyReset_errcode p.arch,
    applyReset_fsm p.arch, applyReset_responses p.arch, applyReset_trace p.arch, rfl,
    applyReset_cfg p.arch, hready⟩

end Sys2Proof.Machine
